-- ==== Sys2Proof/Word.lean ====
section
/-!
DEFINITION. The two machine words: a 32-bit register or command word (00_scope R8, R9) and an 8-bit pixel sample or
byte of pixel memory (00_scope R8, 20_memory R62). Bit 0 is the least significant bit.
-/

namespace Sys2Proof

/-- A 32-bit register or command word, and a 32-bit pixel address or stride (00_scope R8). -/
abbrev Word := BitVec 32

/-- One byte of pixel memory: an unsigned 8-bit sample (20_memory R62). -/
abbrev Byte := BitVec 8

end Sys2Proof
end

