-- ==== Sys2Proof/Machine/State.lean ====
section
/-!
DEFINITION. The state of the machine, as plain data: the register file (10_state R22), the latch and the hidden state of
the engine (10_state R49 to R52), the reset input, pixel memory, the parameters of a launch (70_reset_and_hazards R256),
and, as the model's own fields, the pending moves, what the host got back, and the counter of free values. Then the
reasons a step can stop, and the state after reset (10_state R56).
-/

namespace Sys2Proof.Machine

/-- A view: the base byte address of pixel (0, 0) and the row stride in bytes (10_state R35). -/
structure View where
  addr : Word
  stride : Word
deriving DecidableEq, Repr

/-- The register file's storage (10_state R22). ID is a constant (R25) and CTRL.START and CTRL.SOFT_RESET are
write-only (R26), so none of them is stored; reserved bits read as 0 and ignore writes (R24). -/
structure Regs where
  /-- CTRL.IRQ_EN (R26). -/
  irqEn : Bool
  /-- STATUS.BUSY (R30); it is also the engine's control state (R53). -/
  busy : Bool
  /-- STATUS.DONE (R31). -/
  done : Bool
  /-- STATUS.ERR (R32). -/
  err : Bool
  /-- STATUS.ERR_CODE (R29, 60_exceptions R201). -/
  errCode : BitVec 4
  /-- CMD (R34). -/
  cmd : Word
  /-- A_ADDR, A_STRIDE (R35). -/
  viewA : View
  /-- B_ADDR, B_STRIDE (R36). -/
  viewB : View
  /-- S_ADDR, S_STRIDE (R37). -/
  viewS : View
  /-- D_ADDR, D_STRIDE (R38). -/
  viewD : View
  /-- RES_SSE (R40). -/
  resSse : Word
  /-- RES_VAR (R41). -/
  resVar : Word
  /-- RES_SUM (R42). -/
  resSum : Word
  /-- ERR_ADDR (R43). -/
  errAddr : Word
deriving DecidableEq, Repr

/-- The latch: what the running command reads, copied at the accepted START (10_state R49). -/
structure Latch where
  cmd : Word
  viewA : View
  viewB : View
  viewS : View
  viewD : View
deriving DecidableEq, Repr

/-- The engine's internal arithmetic state, which no rule lets anyone read before a command writes it (R57): the
accumulators (R50), the intermediate buffer T (R51) and the synthesized block X (R52), row by row. T and X exist only
within the step of their command and are empty between steps. -/
structure Hidden where
  sseAcc : BitVec 32
  sumAcc : BitVec 21
  t : List (List (BitVec 16))
  x : List (List Byte)
deriving DecidableEq, Repr

/-- What the platform has at a range of pixel addresses (70_reset_and_hazards R256; 20_memory R71, R72). -/
inductive RegionKind where
  /-- Ordinary idempotent memory (20_memory R71): the launch memory. -/
  | ram
  /-- A device register, or any location with side effects (20_memory R71). -/
  | device
  /-- Nothing: the platform answers by BUS_ERR_RESPONSE (20_memory R72). -/
  | unbacked
deriving DecidableEq, Repr

/-- A range of pixel addresses. -/
structure Region where
  base : Nat
  size : Nat
  kind : RegionKind
deriving DecidableEq, Repr

/-- The platform parameter BUS_ERR_RESPONSE (00_scope R8, 60_exceptions R204). -/
inductive BusErrResponse where
  | error
  | hang
deriving DecidableEq, Repr

/-- The platform's parameters, fixed at the launch (70_reset_and_hazards R256). An address in no region is one about
which the launch says nothing: the launch memory does not admit it (93_implementation_defined X8). -/
structure Platform where
  /-- REG_BASE (10_state R22). -/
  regBase : Word
  busErrResponse : BusErrResponse
  regions : List Region
deriving DecidableEq, Repr

/-- The sixteen registers (10_state R22). -/
inductive Reg where
  | id | ctrl | status | cmd
  | aAddr | aStride | bAddr | bStride | sAddr | sStride | dAddr | dStride
  | resSse | resVar | resSum | errAddr
deriving DecidableEq, Repr

/-- One access of the host: through the register port, at a bus address and of a width in bits (10_state R23), or one
byte of pixel memory (20_memory R75). -/
inductive HostMove where
  | regWrite (addr : Word) (width : Nat) (value : Word)
  | regRead (addr : Word) (width : Nat)
  | memStore (addr : Word) (value : Byte)
  | memLoad (addr : Word)
deriving DecidableEq, Repr

/-- One pending move. The list of them is the interleaving of host, reset input and engine, which the spec leaves open
(60_exceptions R209). -/
inductive Input where
  | host (m : HostMove)
  /-- The engine moves next. -/
  | engineTurn
  /-- The host polls STATUS until BUSY is 0 (30_encoding R102); meanwhile the engine has the turn (log entry 21). -/
  | wait
  /-- The reset input `rst` is asserted (70_reset_and_hazards R241). -/
  | assertRst
  /-- The reset input `rst` is released (70_reset_and_hazards R241). -/
  | releaseRst
deriving DecidableEq, Repr

/-- What a read of the host's gets back. -/
inductive Response where
  | word (v : Word)
  | byte (v : Byte)
deriving DecidableEq, Repr

/-- Pixel memory (20_memory R61): the bytes stored so far, by address. An address it does not list has had nothing
stored to it. -/
abbrev Memory := List Host.Cell

/-- The canonical form of pixel memory: addresses strictly rising, each of the 2^32 there are (20_memory R61). An
unlisted address reads as no listed byte at all, so no entry can equal what it reads as. -/
abbrev Memory.wf (m : Memory) : Prop :=
  m.Pairwise (fun p q => p.1 < q.1) ∧ ∀ p ∈ m, p.1 < 2 ^ 32

/-- The machine. -/
structure State where
  regs : Regs
  latch : Latch
  hidden : Hidden
  /-- The reset input is asserted (10_state R55, 70_reset_and_hazards R241). -/
  rst : Bool
  mem : Memory
  platform : Platform
  /-- The moves still to come, first one first (the model's own field). -/
  inputs : List Input
  /-- What the host got back, newest first (the model's own field). -/
  responses : List Response
  /-- How many free values have been drawn (the model's own field). -/
  draws : Nat
deriving DecidableEq, Repr

/-- Why the machine stops with a fault: the cases for which 60_exceptions R219 says a model faults. Each is safe: the
hardware goes on with contents nobody states. -/
inductive Fault where
  /-- The destination window shares a byte with a read window of the same command (20_memory R74). Raised by INTERP and
  INTERP_AVG. Safe. -/
  | overlap
  /-- The host stores to a byte of a window of the command in flight (20_memory R85). Raised by a host store. Safe. -/
  | race
  /-- A window holds an address the launch memory does not admit (20_memory R72). Raised by every command. Safe. -/
  | unadmitted
deriving DecidableEq, Repr

/-- Why a step has no meaning. Each is safe: the machine stops. -/
inductive Refusal where
  /-- A command without a meaning: raised by `exec`'s arms only, and by none of them now. Safe. -/
  | notModelled (mnemonic : String)
  /-- A window covers memory with side effects (20_memory R71, 60_exceptions R219). Raised by every command, and by a
  reset that aborts one. Safe. -/
  | nonIdempotent
  /-- A register access of another width than 32 bits, misaligned, or outside the register window (10_state R23). Raised
  by the host's register port. Safe. -/
  | registerAccess
  /-- A register access while `rst` is asserted, which "the block answers" not (70_reset_and_hazards R241). Raised by
  the host's register port, and by the poll of a host that waits (log entry 14). Safe. -/
  | accessDuringReset
  /-- A load or store of the host's at an address that is not RAM, and neither stored to in a window nor loaded from the
  destination of the command in flight: the platform's affair (20_memory R76, R84; log entry 19). Raised by the host's
  own accesses. Safe. -/
  | hostAccessOutsideRam
deriving DecidableEq, Repr

/-- A view at reset (10_state R56). -/
def View.reset : View := { addr := 0, stride := 0 }

/-- The register file at reset: all 0 (10_state R56). -/
def Regs.reset : Regs :=
  { irqEn := false, busy := false, done := false, err := false, errCode := 0, cmd := 0,
    viewA := View.reset, viewB := View.reset, viewS := View.reset, viewD := View.reset,
    resSse := 0, resVar := 0, resSum := 0, errAddr := 0 }

/-- The latch at reset: unspecified and never read before a START writes it (10_state R56, R57). DESIGN CHOICE 0, log
entry 17. -/
def Latch.reset : Latch :=
  { cmd := 0, viewA := View.reset, viewB := View.reset, viewS := View.reset, viewD := View.reset }

/-- The hidden state at reset: unspecified and never read before a command writes it (10_state R56, R57). DESIGN CHOICE
0 and empty, log entry 17. -/
def Hidden.reset : Hidden := { sseAcc := 0, sumAcc := 0, t := [], x := [] }

/-- The platform of `State.reset`: all OPEN in the spec (00_scope R8). DESIGN CHOICE, log entries 4, 15 and 16: the whole
pixel space is RAM, REG_BASE is 0, BUS_ERR_RESPONSE is error. -/
def Platform.reset : Platform :=
  { regBase := 0, busErrResponse := .error, regions := [{ base := 0, size := 2 ^ 32, kind := .ram }] }

/-- The machine right after reset (10_state R56, 70_reset_and_hazards R241, R244): the engine IDLE, nothing pending. -/
def State.reset : State :=
  { regs := Regs.reset, latch := Latch.reset, hidden := Hidden.reset, rst := false, mem := [],
    platform := Platform.reset, inputs := [], responses := [], draws := 0 }

end Sys2Proof.Machine
end

