-- ==== Sys2Proof/Machine/Flags.lean ====
section
/-!
DEFINITION. The status flags: the error codes (60_exceptions R201), the words a read of CTRL and of STATUS returns
(10_state R28, R29), the acknowledgement a write to STATUS makes (10_state R33), and the interrupt output (10_state R54).
The engine has no condition codes (10_state R47).
-/

namespace Sys2Proof.Machine

/-- The errors the engine reports (60_exceptions R201). -/
inductive CmdError where
  | illegalOp | rsvdField | badSize | badStride | addrWrap | busErr
deriving DecidableEq, Repr

/-- STATUS.ERR_CODE of an error (60_exceptions R201). -/
def errorCode : CmdError → BitVec 4
  | .illegalOp => 1
  | .rsvdField => 2
  | .badSize => 3
  | .badStride => 4
  | .addrWrap => 5
  | .busErr => 6

/-- One bit of a register word. -/
def bit (b : Bool) : BitVec 1 := BitVec.ofBool b

/-- "A read of CTRL returns {29'b0, SOFT_RESET=0, IRQ_EN, START=0}" (10_state R28). -/
def ctrlWord (r : Regs) : Word := (0 : BitVec 30) ++ bit r.irqEn ++ (0 : BitVec 1)

/-- A read of STATUS: BUSY bit 0, DONE bit 1, ERR bit 2, bit 3 reserved, ERR_CODE bits 7:4 (10_state R29). -/
def statusWord (r : Regs) : Word :=
  (0 : BitVec 24) ++ r.errCode ++ (0 : BitVec 1) ++ bit r.err ++ bit r.done ++ bit r.busy

/-- A write of `v` to STATUS: bit 1 clears DONE; bit 2 clears ERR, ERR_CODE and ERR_ADDR (10_state R33). -/
def ackStatus (v : Word) (r : Regs) : Regs :=
  { r with
    done := if v.getLsbD 1 then false else r.done
    err := if v.getLsbD 2 then false else r.err
    errCode := if v.getLsbD 2 then 0 else r.errCode
    errAddr := if v.getLsbD 2 then 0 else r.errAddr }

/-- The interrupt output: the level `CTRL.IRQ_EN AND STATUS.DONE` (10_state R54, 60_exceptions R207). -/
def State.irq (s : State) : Bool := s.regs.irqEn && s.regs.done

end Sys2Proof.Machine
end

