-- ==== Sys2Proof/Config.lean ====
section
/-!
DEFINITION. The free values: constants without a body, of which no proof can know a value. A statement about one holds
whatever it is. The parameters the spec leaves OPEN (REG_BASE, BUS_ERR_RESPONSE, which addresses are backed) are data
of a launch (70_reset_and_hazards R256) and stand in `State.platform`.
-/

namespace Sys2Proof.Config

/-- The byte a backed address holds before anything has been stored there: "Backed bytes that hold no defined pixel
data are read as whatever they hold" (93_implementation_defined U3). One value for each address, since pixel memory is
idempotent (20_memory R71). Log entry 3. -/
opaque powerOnByte : Nat → BitVec 8

/-- The `n`-th byte drawn where a rule lets a byte be any value: a host read of the destination in flight (R85), the
destination window after a bus error (R204) or after an abort (R243). Log entries 6, 10, 11. -/
opaque freeByte : Nat → BitVec 8

/-- The `n`-th choice where a rule leaves one open: which erring address ERR_ADDR reports (R204). Log entry 6. -/
opaque freePick : Nat → Nat

end Sys2Proof.Config
end

