-- ==== Sys2Proof/Syntax.lean ====
section
/-!
DEFINITION. The six commands of spec/opcode_table.json (30_encoding R93), one constructor a row, with the fields of
the command word each uses (30_encoding R97). The size codes stand as they are in the word: whether they name a size of
the catalogue is checked when the command runs (30_encoding R104, 60_exceptions R202), not when it is decoded.
-/

namespace Sys2Proof

/-- WCODE or HCODE, the 3-bit code of one block dimension (30_encoding R94). -/
abbrev SizeCode := BitVec 3

/-- XPHASE or YPHASE, an offset in eighths of a pixel; all eight values are legal (30_encoding R96). -/
abbrev Phase := BitVec 3

/-- A command (30_encoding R93, R97). SSE and VAR take no phase (30_encoding R92). -/
inductive Instr where
  | sse (wcode hcode : SizeCode)
  | var (wcode hcode : SizeCode)
  | interp (wcode hcode : SizeCode) (xphase yphase : Phase)
  | interpAvg (wcode hcode : SizeCode) (xphase yphase : Phase)
  | subpixVar (wcode hcode : SizeCode) (xphase yphase : Phase)
  | subpixAvgVar (wcode hcode : SizeCode) (xphase yphase : Phase)
deriving DecidableEq, Repr

/-- The width code of a command. -/
def Instr.wcode : Instr → SizeCode
  | .sse w _ => w
  | .var w _ => w
  | .interp w _ _ _ => w
  | .interpAvg w _ _ _ => w
  | .subpixVar w _ _ _ => w
  | .subpixAvgVar w _ _ _ => w

/-- The height code of a command. -/
def Instr.hcode : Instr → SizeCode
  | .sse _ h => h
  | .var _ h => h
  | .interp _ h _ _ => h
  | .interpAvg _ h _ _ => h
  | .subpixVar _ h _ _ => h
  | .subpixAvgVar _ h _ _ => h

/-- The pseudo-instruction COPY: block A to D (30_encoding R103). -/
def Instr.copy (wcode hcode : SizeCode) : Instr := .interp wcode hcode 0 0

/-- The pseudo-instruction AVG: the rounded average of A and S to D (30_encoding R103). -/
def Instr.avg (wcode hcode : SizeCode) : Instr := .interpAvg wcode hcode 0 0

end Sys2Proof
end

