-- ==== Sys2Proof/WellFormed.lean ====
section
/-!
DEFINITION. Well-formed commands: those whose size codes name one of the 13 sizes of the catalogue, in the
characterisation of 30_encoding R98. An ill-formed command still has a meaning: it ends with BAD_SIZE (30_encoding R95).
-/

namespace Sys2Proof

/-- "(WCODE, HCODE) is legal exactly when both are at most 4 and |WCODE − HCODE| ≤ 1" (30_encoding R98). -/
def SizeCode.legalPair (wcode hcode : SizeCode) : Bool :=
  decide (wcode.toNat ≤ 4) && decide (hcode.toNat ≤ 4)
    && decide (wcode.toNat ≤ hcode.toNat + 1) && decide (hcode.toNat ≤ wcode.toNat + 1)

/-- A command of a legal size. Every phase is legal (30_encoding R96). -/
def Instr.wellFormed (i : Instr) : Bool := SizeCode.legalPair i.wcode i.hcode

end Sys2Proof
end

