-- ==== Sys2Proof/Decode.lean ====
section
/-!
DEFINITION. The command word: decoding (30_encoding R91 to R93, with the first three checks of 60_exceptions R202),
encoding (30_encoding R101), the opcode table's rows (30_encoding R104), the word as bytes, and the assembler's text
(30_encoding R101).
-/

namespace Sys2Proof

/-- Why a 32-bit word is no command; each is an error the engine reports (30_encoding R99). -/
inductive WordError where
  /-- OP is 0x0 or 0x7 to 0xF (30_encoding R93). -/
  | illegalOp
  /-- Bits 31:16 are not 0, or SSE or VAR has a phase that is not 0 (30_encoding R92). -/
  | rsvdField
deriving DecidableEq, Repr

/-- Why a list of bytes is no command: too short to hold the word, or the word is none. -/
inductive DecodeError where
  | truncated
  | badWord (e : WordError)
deriving DecidableEq, Repr

/-- The six legal values of OP (30_encoding R93). -/
inductive Op where
  | sse | var | interp | interpAvg | subpixVar | subpixAvgVar
deriving DecidableEq, Repr

/-- CMD[3:0] (30_encoding R91). -/
def opField (w : Word) : BitVec 4 := w.extractLsb' 0 4
/-- CMD[6:4] (30_encoding R91). -/
def wcodeField (w : Word) : SizeCode := w.extractLsb' 4 3
/-- CMD[9:7] (30_encoding R91). -/
def hcodeField (w : Word) : SizeCode := w.extractLsb' 7 3
/-- CMD[12:10] (30_encoding R91). -/
def xphaseField (w : Word) : Phase := w.extractLsb' 10 3
/-- CMD[15:13] (30_encoding R91). -/
def yphaseField (w : Word) : Phase := w.extractLsb' 13 3
/-- CMD[31:16], which must be 0 (30_encoding R92). -/
def rsvdBits (w : Word) : BitVec 16 := w.extractLsb' 16 16

/-- The opcode map of 30_encoding R93. -/
def opOf (f : BitVec 4) : Option Op :=
  if f = 1 then some .sse
  else if f = 2 then some .var
  else if f = 3 then some .interp
  else if f = 4 then some .interpAvg
  else if f = 5 then some .subpixVar
  else if f = 6 then some .subpixAvgVar
  else none

/-- The OP field of a command (30_encoding R93). -/
def opCode : Op → BitVec 4
  | .sse => 1
  | .var => 2
  | .interp => 3
  | .interpAvg => 4
  | .subpixVar => 5
  | .subpixAvgVar => 6

/-- SSE and VAR take no phase (30_encoding R92). -/
def Op.takesNoPhase : Op → Bool
  | .sse => true
  | .var => true
  | .interp => false
  | .interpAvg => false
  | .subpixVar => false
  | .subpixAvgVar => false

/-- The command an op makes of its four fields (30_encoding R97). -/
def buildInstr (op : Op) (wc hc : SizeCode) (xp yp : Phase) : Instr :=
  match op with
  | .sse => .sse wc hc
  | .var => .var wc hc
  | .interp => .interp wc hc xp yp
  | .interpAvg => .interpAvg wc hc xp yp
  | .subpixVar => .subpixVar wc hc xp yp
  | .subpixAvgVar => .subpixAvgVar wc hc xp yp

/-- Decoding one command word: OP first, then the reserved bits, then the phases of SSE and VAR, in the order of
60_exceptions R202. The size codes are not looked at (30_encoding R104; log entry 23). -/
def decodeWord (w : Word) : Except WordError Instr :=
  match opOf (opField w) with
  | none => .error .illegalOp
  | some op =>
    if rsvdBits w ≠ 0 then .error .rsvdField
    else if op.takesNoPhase = true ∧ (xphaseField w ≠ 0 ∨ yphaseField w ≠ 0) then .error .rsvdField
    else .ok (buildInstr op (wcodeField w) (hcodeField w) (xphaseField w) (yphaseField w))

/-- The word with the given fields, bit 31 on the left: the pattern of 30_encoding R91. -/
def assembleWord (yp xp : Phase) (hc wc : SizeCode) (op : BitVec 4) : Word :=
  (0 : BitVec 16) ++ yp ++ xp ++ hc ++ wc ++ op

/-- The command word of a command (30_encoding R101). -/
def encode : Instr → Word
  | .sse wc hc => assembleWord 0 0 hc wc (opCode .sse)
  | .var wc hc => assembleWord 0 0 hc wc (opCode .var)
  | .interp wc hc xp yp => assembleWord yp xp hc wc (opCode .interp)
  | .interpAvg wc hc xp yp => assembleWord yp xp hc wc (opCode .interpAvg)
  | .subpixVar wc hc xp yp => assembleWord yp xp hc wc (opCode .subpixVar)
  | .subpixAvgVar wc hc xp yp => assembleWord yp xp hc wc (opCode .subpixAvgVar)

/-- One row of the opcode table: a word selects it when its bits under the mask are the match (30_encoding R104). -/
structure OpcodeRow where
  matchBits : Word
  mask : Word
deriving DecidableEq, Repr

/-- The six rows of spec/opcode_table.json, in the table's order. -/
def opcodeRows : List OpcodeRow :=
  [⟨0x00000001, 0xFFFFFC0F⟩, ⟨0x00000002, 0xFFFFFC0F⟩, ⟨0x00000003, 0xFFFF000F⟩,
   ⟨0x00000004, 0xFFFF000F⟩, ⟨0x00000005, 0xFFFF000F⟩, ⟨0x00000006, 0xFFFF000F⟩]

/-- The row of the opcode table that stands for a command. -/
def Instr.row : Instr → OpcodeRow
  | .sse _ _ => ⟨0x00000001, 0xFFFFFC0F⟩
  | .var _ _ => ⟨0x00000002, 0xFFFFFC0F⟩
  | .interp _ _ _ _ => ⟨0x00000003, 0xFFFF000F⟩
  | .interpAvg _ _ _ _ => ⟨0x00000004, 0xFFFF000F⟩
  | .subpixVar _ _ _ _ => ⟨0x00000005, 0xFFFF000F⟩
  | .subpixAvgVar _ _ _ _ => ⟨0x00000006, 0xFFFF000F⟩

/-- "A word w selects a row when (w & mask) == match" (30_encoding R104). -/
def OpcodeRow.selects (row : OpcodeRow) (w : Word) : Bool := w &&& row.mask == row.matchBits

/-- A 32-bit word of four bytes, the first byte its bits 7:0 (20_memory R63). -/
def wordOfBytes (b0 b1 b2 b3 : Byte) : Word := b3 ++ b2 ++ b1 ++ b0

/-- The four bytes of a word, bits 7:0 first (20_memory R63). -/
def bytesOfWord (w : Word) : List Byte :=
  [w.extractLsb' 0 8, w.extractLsb' 8 8, w.extractLsb' 16 8, w.extractLsb' 24 8]

/-- Decoding any list of bytes: the first four are the command word, the rest is handed back. The engine itself takes
the word from the CMD register whole (30_encoding R90); log entry 24. -/
def decode (bytes : List Byte) : Except DecodeError (Instr × List Byte) :=
  match bytes with
  | b0 :: b1 :: b2 :: b3 :: rest =>
    match decodeWord (wordOfBytes b0 b1 b2 b3) with
    | .ok i => .ok (i, rest)
    | .error e => .error (.badWord e)
  | _ => .error .truncated

/-- The bytes of a command's word. -/
def encodeBytes (i : Instr) : List Byte := bytesOfWord (encode i)

/-- The command that a number of `nbits` bits decodes to, numbered as spec/opcode_table.json numbers them: bit 0 is bit
0 of the one command word. Bits above `nbits` are 0. -/
def decodeTableWord (nbits w : Nat) : Option Instr :=
  match decode (bytesOfWord (BitVec.ofNat 32 (w % 2 ^ nbits))) with
  | .ok (i, _) => some i
  | .error _ => none

/-- One dimension in the assembler's text (30_encoding R94, R101). The spec gives a reserved code (5 to 7) no text; the
word "reserved" for it is no spec syntax. DESIGN CHOICE, log entry 29. -/
def dimensionText (c : SizeCode) : String :=
  if c = 0 then "4" else if c = 1 then "8" else if c = 2 then "16" else if c = 3 then "32"
  else if c = 4 then "64" else "reserved"

/-- A phase in the assembler's text: one decimal digit (30_encoding R101). -/
def phaseText (p : Phase) : String :=
  if p = 0 then "0" else if p = 1 then "1" else if p = 2 then "2" else if p = 3 then "3"
  else if p = 4 then "4" else if p = 5 then "5" else if p = 6 then "6" else "7"

/-- The size suffix of the assembler's text, width first (30_encoding R101). The spec has one for the 13 catalogue sizes
only; the suffix of any other pair of codes is the model's. DESIGN CHOICE, log entry 29. -/
def sizeText (wc hc : SizeCode) : String := "." ++ dimensionText wc ++ "x" ++ dimensionText hc

/-- The two phase operands of the assembler's text, horizontal first (30_encoding R101). -/
def phasesText (xp yp : Phase) : String := " " ++ phaseText xp ++ ", " ++ phaseText yp

/-- A command of a catalogue size in the spec's assembler syntax (30_encoding R101). The spec's syntax has no text for a
command of another size; what stands here for one, such as VAR.4x16 or VAR.4xreserved, is the model's and no spec syntax.
DESIGN CHOICE, log entry 29. -/
def assemblerText : Instr → String
  | .sse wc hc => "SSE" ++ sizeText wc hc
  | .var wc hc => "VAR" ++ sizeText wc hc
  | .interp wc hc xp yp => "INTERP" ++ sizeText wc hc ++ phasesText xp yp
  | .interpAvg wc hc xp yp => "INTERP_AVG" ++ sizeText wc hc ++ phasesText xp yp
  | .subpixVar wc hc xp yp => "SUBPIX_VAR" ++ sizeText wc hc ++ phasesText xp yp
  | .subpixAvgVar wc hc xp yp => "SUBPIX_AVG_VAR" ++ sizeText wc hc ++ phasesText xp yp

end Sys2Proof
end

