-- ==== Sys2Proof/Machine/Ops.lean ====
section
/-!
DEFINITION. The named operations: reading and writing pixel memory (20_memory R62), what the platform has at an address
(R71, R72), the single updates of State, the accepted START (10_state R27), the two completions (60_exceptions R205,
R206: the error completion is this engine's taking of an exception), the host's acknowledgement, which is all the return
from one there is (R211), drawing free bytes, and the effect of a reset (70_reset_and_hazards R241, R242).
-/

namespace Sys2Proof.Machine

/-- The byte stored at an address, if any has been. -/
def Memory.read : Memory → Nat → Option Byte
  | [], _ => none
  | (k, b) :: rest, a => if a = k then some b else Memory.read rest a

/-- Storing a byte, keeping the addresses in rising order. -/
def Memory.write : Memory → Nat → Byte → Memory
  | [], a, v => [(a, v)]
  | (k, b) :: rest, a, v =>
    if a < k then (a, v) :: (k, b) :: rest
    else if a = k then (a, v) :: rest
    else (k, b) :: Memory.write rest a v

/-- `MemRead(addr, 1)` on RAM (00_scope R11, 20_memory R62): what was stored there last, and before any store whatever
the byte holds (93_implementation_defined U3; log entry 3). -/
def Memory.byteAt (m : Memory) (a : Nat) : Byte := (Memory.read m a).getD (Config.powerOnByte a)

/-- What the platform has at an address; none where the launch says nothing of it. -/
def Platform.kindOf (p : Platform) (a : Nat) : Option RegionKind :=
  (p.regions.find? (fun r => decide (r.base ≤ a) && decide (a < r.base + r.size))).map (·.kind)

/-- Replaces the register file. -/
def State.setRegs (s : State) (r : Regs) : State := { s with regs := r }
/-- Replaces the latch. -/
def State.setLatch (s : State) (l : Latch) : State := { s with latch := l }
/-- Replaces the hidden state. -/
def State.setHidden (s : State) (h : Hidden) : State := { s with hidden := h }
/-- Replaces the level of the reset input. -/
def State.setRst (s : State) (b : Bool) : State := { s with rst := b }
/-- Replaces pixel memory. -/
def State.setMem (s : State) (m : Memory) : State := { s with mem := m }
/-- Replaces the pending moves. -/
def State.setInputs (s : State) (is : List Input) : State := { s with inputs := is }
/-- Replaces the counter of free values. -/
def State.setDraws (s : State) (n : Nat) : State := { s with draws := n }
/-- Hands the host a response. -/
def State.respond (s : State) (x : Response) : State := { s with responses := x :: s.responses }

/-- The command word the engine runs: the latched one (20_memory R81). -/
def fetchWord (s : State) : Word := s.latch.cmd

/-- The latch an accepted START fills: CMD and the eight view registers (10_state R27, R49). -/
def latchOf (r : Regs) : Latch :=
  { cmd := r.cmd, viewA := r.viewA, viewB := r.viewB, viewS := r.viewS, viewD := r.viewD }

/-- An accepted START: DONE, ERR, ERR_CODE and ERR_ADDR are cleared, the configuration is latched, BUSY is set
(10_state R27). -/
def acceptStart (s : State) : State :=
  (s.setLatch (latchOf s.regs)).setRegs
    { s.regs with busy := true, done := false, err := false, errCode := 0, errAddr := 0 }

/-- The result registers a successful completion writes; none: kept (10_state R45). -/
structure ResultWrites where
  sse : Option Word := none
  var : Option Word := none
  sum : Option Word := none
deriving DecidableEq, Repr

/-- `complete_ok(writes)` (60_exceptions R205). -/
def completeOk (w : ResultWrites) (s : State) : State :=
  s.setRegs { s.regs with
    resSse := w.sse.getD s.regs.resSse
    resVar := w.var.getD s.regs.resVar
    resSum := w.sum.getD s.regs.resSum
    busy := false
    done := true }

/-- `raise E(info)`: the error completion (60_exceptions R206). It is all that an error records and changes (R210). -/
def completeErr (e : CmdError) (info : Word) (s : State) : State :=
  s.setRegs { s.regs with errCode := errorCode e, err := true, errAddr := info, busy := false, done := true }

/-- The host's acknowledgement of a completion, a write of `v` to STATUS (60_exceptions R211, 10_state R33). -/
def acknowledge (v : Word) (s : State) : State := s.setRegs (ackStatus v s.regs)

/-- The error completion of a latched word that is no command (60_exceptions R202, first three checks). -/
def rejectWord (e : WordError) (s : State) : State :=
  match e with
  | .illegalOp => completeErr .illegalOp 0 s
  | .rsvdField => completeErr .rsvdField 0 s

/-- One byte of RAM takes a free value; a byte that is no RAM has nothing to take it. -/
def drawByte (a : Nat) (s : State) : State :=
  (if s.platform.kindOf a = some .ram then s.setMem (Memory.write s.mem a (Config.freeByte s.draws)) else s).setDraws
    (s.draws + 1)

/-- Each byte of a list of addresses takes a free value of its own. -/
def drawBytes : List Nat → State → State
  | [], s => s
  | a :: rest, s => drawBytes rest (drawByte a s)

/-- Every register and the control state take their values of 10_state R56, as a hardware reset and a soft reset do
(70_reset_and_hazards R241, R242). The latch, the accumulators, T and X, which R56 leaves unspecified, take 0 and the empty
list: DESIGN CHOICE, log entry 17. Pixel memory, the platform and the host are not the block's. -/
def resetBlock (s : State) : State :=
  ((s.setRegs Regs.reset).setLatch Latch.reset).setHidden Hidden.reset

end Sys2Proof.Machine
end

