-- ==== Sys2Proof/Machine/Operands.lean ====
section
/-!
DEFINITION. The operands of a command: its size (30_encoding R94, R95), the views it uses and their roles (R97), the
addresses and windows of a view (20_memory R65, R66), the filter table (10_state R48), the configuration checks that
follow decoding (60_exceptions R202), and what the platform has under the windows (20_memory R71, R72, R74).
-/

namespace Sys2Proof.Machine

/-- The decoded size: W columns, H rows, and L = log2 (W × H) (30_encoding R95, 00_scope R12). -/
structure Size where
  w : Nat
  h : Nat
  l : Nat
deriving DecidableEq, Repr

/-- CAT, the 13 sizes as (width, height) (00_scope R8, 30_encoding R95). -/
def catalogue : List (Nat × Nat) :=
  [(4, 4), (4, 8), (8, 4), (8, 8), (8, 16), (16, 8), (16, 16), (16, 32), (32, 16), (32, 32), (32, 64), (64, 32),
   (64, 64)]

/-- Size decoding (30_encoding R95); none is BAD_SIZE. -/
def sizeDecode (wcode hcode : SizeCode) : Option Size :=
  if 4 < wcode.toNat ∨ 4 < hcode.toNat then none
  else if (4 <<< wcode.toNat, 4 <<< hcode.toNat) ∈ catalogue then
    some { w := 4 <<< wcode.toNat, h := 4 <<< hcode.toNat, l := wcode.toNat + hcode.toNat + 4 }
  else none

/-- FILT[p], the pair (Tap0, Tap1) = (128 − 16·p, 16·p) (10_state R48). -/
def filt (p : Phase) : Nat × Nat := (128 - 16 * p.toNat, 16 * p.toNat)

/-- What a view is to a command (20_memory R66). -/
inductive Role where
  | stats | interpSrc | second | dest
deriving DecidableEq, Repr

/-- The rows of a role's window (20_memory R66). -/
def Role.rows (sz : Size) : Role → Nat
  | .stats => sz.h
  | .interpSrc => sz.h + 1
  | .second => sz.h
  | .dest => sz.h

/-- The columns of a role's window (20_memory R66). -/
def Role.cols (sz : Size) : Role → Nat
  | .stats => sz.w
  | .interpSrc => sz.w + 1
  | .second => sz.w
  | .dest => sz.w

/-- A view a command uses, and as what. -/
structure UsedView where
  view : View
  role : Role
deriving DecidableEq, Repr

/-- The views each command uses, from the latch; the others are neither read nor checked (30_encoding R97, 20_memory
R68). -/
def usedViews (i : Instr) (l : Latch) : List UsedView :=
  match i with
  | .sse _ _ => [⟨l.viewA, .stats⟩, ⟨l.viewB, .stats⟩]
  | .var _ _ => [⟨l.viewA, .stats⟩, ⟨l.viewB, .stats⟩]
  | .interp _ _ _ _ => [⟨l.viewA, .interpSrc⟩, ⟨l.viewD, .dest⟩]
  | .interpAvg _ _ _ _ => [⟨l.viewA, .interpSrc⟩, ⟨l.viewS, .second⟩, ⟨l.viewD, .dest⟩]
  | .subpixVar _ _ _ _ => [⟨l.viewA, .interpSrc⟩, ⟨l.viewB, .stats⟩]
  | .subpixAvgVar _ _ _ _ => [⟨l.viewA, .interpSrc⟩, ⟨l.viewS, .second⟩, ⟨l.viewB, .stats⟩]

/-- `addr(V, r, c)`, the exact sum (20_memory R65). -/
def pixAddr (v : View) (r c : Nat) : Nat := v.addr.toNat + r * v.stride.toNat + c

/-- `pix(V, r, c)`, an integer in 0 to 255 (20_memory R65). -/
def pix (m : Memory) (v : View) (r c : Nat) : Nat := (Memory.byteAt m (pixAddr v r c)).toNat

/-- The positions of a block of `h` rows and `w` columns, row by row. -/
def coords (h w : Nat) : List (Nat × Nat) :=
  (List.range h).flatMap fun r => (List.range w).map fun c => (r, c)

/-- The window of a used view: its addresses (20_memory R66). -/
def UsedView.addrs (sz : Size) (u : UsedView) : List Nat :=
  (coords (u.role.rows sz) (u.role.cols sz)).map fun p => pixAddr u.view p.1 p.2

/-- Whether an address is in the window of a used view: in the columns of one of its rows. -/
def UsedView.covers (sz : Size) (u : UsedView) (a : Nat) : Bool :=
  (List.range (u.role.rows sz)).any fun r =>
    decide (pixAddr u.view r 0 ≤ a) && decide (a < pixAddr u.view r 0 + u.role.cols sz)

/-- `last(V)`, computed exactly (20_memory R69). -/
def UsedView.lastAddr (sz : Size) (u : UsedView) : Nat :=
  u.view.addr.toNat + (u.role.rows sz - 1) * u.view.stride.toNat + (u.role.cols sz - 1)

/-- The checks of 60_exceptions R202 that follow decoding, in their order: BAD_SIZE, then BAD_STRIDE of any used view,
then ADDR_WRAP of any used view (20_memory R69, R70). -/
def checkConfig (i : Instr) (l : Latch) : Except CmdError Size :=
  match sizeDecode i.wcode i.hcode with
  | none => .error .badSize
  | some sz =>
    if (usedViews i l).any (fun u => decide (u.view.stride.toNat < sz.w)) then .error .badStride
    else if (usedViews i l).any (fun u => decide (0xFFFFFFFF < u.lastAddr sz)) then .error .addrWrap
    else .ok sz

/-- Every address a command accesses, view by view (20_memory R66, R67). -/
def accessAddrs (i : Instr) (l : Latch) (sz : Size) : List Nat := (usedViews i l).flatMap (·.addrs sz)

/-- The addresses a command stores to: D's window for INTERP and INTERP_AVG, none for the others (20_memory R61, R66). -/
def destAddrs (i : Instr) (l : Latch) (sz : Size) : List Nat :=
  ((usedViews i l).filter (fun u => u.role = .dest)).flatMap (·.addrs sz)

/-- Whether an address is in a window of the command. -/
def inWindows (i : Instr) (l : Latch) (sz : Size) (a : Nat) : Bool := (usedViews i l).any (·.covers sz a)

/-- Whether an address is in the command's destination window. -/
def inDest (i : Instr) (l : Latch) (sz : Size) (a : Nat) : Bool :=
  (usedViews i l).any (fun u => decide (u.role = .dest) && u.covers sz a)

/-- Whether an address is in a window the command reads. -/
def inReads (i : Instr) (l : Latch) (sz : Size) (a : Nat) : Bool :=
  (usedViews i l).any (fun u => decide (u.role ≠ .dest) && u.covers sz a)

/-- The destination window shares a byte with a window the same command reads (20_memory R74). -/
def overlaps (i : Instr) (l : Latch) (sz : Size) : Bool := (destAddrs i l sz).any (inReads i l sz)

/-- What stands in the way of a command's accesses. -/
inductive Admission where
  /-- Every window is RAM and no destination byte is read: the command runs. -/
  | clear
  /-- A window covers memory with side effects (20_memory R71). -/
  | nonIdempotent
  /-- A window holds an address the launch says nothing of (93_implementation_defined X8). -/
  | unadmitted
  /-- The destination overlaps a read window (20_memory R74). -/
  | overlap
  /-- These accesses, at least one, are the ones the platform does not answer with data (20_memory R72). -/
  | unanswered (addrs : List Nat)
deriving DecidableEq, Repr

/-- The platform's and the windows' say on a command that has passed its checks. Log entry 20: the order of the cases. -/
def admission (i : Instr) (l : Latch) (p : Platform) (sz : Size) : Admission :=
  if (accessAddrs i l sz).any (fun a => decide (p.kindOf a = some .device)) then .nonIdempotent
  else if (accessAddrs i l sz).any (fun a => decide (p.kindOf a = none)) then .unadmitted
  else if overlaps i l sz then .overlap
  else if (accessAddrs i l sz).any (fun a => decide (p.kindOf a = some .unbacked)) then
    .unanswered ((accessAddrs i l sz).filter fun a => decide (p.kindOf a = some .unbacked))
  else .clear

end Sys2Proof.Machine
end

