-- ==== Sys2Proof/Machine/Command.lean ====
section
/-!
DEFINITION. What every command does around its arithmetic: the configuration checks (60_exceptions R202, R203), the
answer of the platform (20_memory R71, R72, R74; 60_exceptions R204), and then the command's own effect; and the command
in flight, which the host's accesses and a reset look at (20_memory R85, 70_reset_and_hazards R243).
-/

namespace Sys2Proof.Machine

/-- The platform leaves accesses of the command unanswered by data (60_exceptions R204). With response `error` the
command ends with BUS_ERR, ERR_ADDR one of those addresses, and every destination byte takes a free value; with `hang`
the command never completes and BUSY stays 1. Log entries 5, 6, 7. -/
def busResponse (i : Instr) (sz : Size) (addrs : List Nat) (s : State) : State :=
  match s.platform.busErrResponse with
  | .error =>
    completeErr .busErr (BitVec.ofNat 32 (addrs.getD (Config.freePick s.draws % addrs.length) 0))
      (drawBytes (destAddrs i s.latch sz) (s.setDraws (s.draws + 1)))
  | .hang => s

/-- A command: its checks, the platform's answer, and its own effect `body` where nothing stands in the way. -/
def runCommand (i : Instr) (body : Size → State → State) (s : State) : Host.Outcome State Fault Refusal :=
  match checkConfig i s.latch with
  | .error e => .next (completeErr e 0 s)
  | .ok sz =>
    match admission i s.latch s.platform sz with
    | .nonIdempotent => .refused .nonIdempotent
    | .unadmitted => .fault .unadmitted
    | .overlap => .fault .overlap
    | .unanswered addrs => .next (busResponse i sz addrs s)
    | .clear => .next (body sz s)

/-- The command in flight that makes pixel accesses, with its size: BUSY, the latched word a command, and its
configuration checks passed. One that fails a check makes no access (60_exceptions R203); log entry 9. -/
def inFlight (s : State) : Option (Instr × Size) :=
  if s.regs.busy then
    match decodeWord (fetchWord s) with
    | .error _ => none
    | .ok i =>
      match checkConfig i s.latch with
      | .error _ => none
      | .ok sz => some (i, sz)
  else none

end Sys2Proof.Machine
end

