-- ==== Sys2Proof/Machine/Interpolation.lean ====
section
/-!
DEFINITION. The bilinear interpolator (42_interpolation R140 to R148) and the commands INTERP and INTERP_AVG (R149,
R150). Every sample is computed from pixel memory as it stood before the command stored anything (20_memory R76).
-/

namespace Sys2Proof.Machine

/-- `(s0 * tap0 + s1 * tap1 + 64) >> 7`: round to nearest, a half up (42_interpolation R141, R146). -/
def filterTap (taps : Nat × Nat) (s0 s1 : Nat) : Nat := (s0 * taps.1 + s1 * taps.2 + 64) >>> 7

/-- The horizontal pass: T[r][c] (42_interpolation R141). -/
def hpass (xp : Phase) (src : Nat → Nat → Nat) (r c : Nat) : Nat := filterTap (filt xp) (src r c) (src r (c + 1))

/-- The vertical pass with its clamp: P[r][c] (42_interpolation R143). -/
def vpass (yp : Phase) (t : Nat → Nat → Nat) (r c : Nat) : Nat := min (filterTap (filt yp) (t r c) (t (r + 1) c)) 255

/-- `INTERPOLATE(A, xp, yp)` (42_interpolation R148). -/
def interpolate (xp yp : Phase) (src : Nat → Nat → Nat) : Nat → Nat → Nat := vpass yp (hpass xp src)

/-- `AVG2(p, s) = (p + s + 1) >> 1` (42_interpolation R147). -/
def avg2 (p s : Nat) : Nat := (p + s + 1) >>> 1

/-- The averaging step over a block: Q[r][c] (42_interpolation R147). -/
def averageWith (p snd : Nat → Nat → Nat) (r c : Nat) : Nat := avg2 (p r c) (snd r c)

/-- `INTERPOLATE_AVG(A, S, xp, yp)` (42_interpolation R147, R148). -/
def interpolateAvg (xp yp : Phase) (src snd : Nat → Nat → Nat) : Nat → Nat → Nat :=
  averageWith (interpolate xp yp src) snd

/-- A block as rows of elements of `n` bits. -/
def tabulate (n h w : Nat) (f : Nat → Nat → Nat) : List (List (BitVec n)) :=
  (List.range h).map fun r => (List.range w).map fun c => BitVec.ofNat n (f r c)

/-- The element of a buffer at row `r`, column `c`. -/
def elemAt {n : Nat} (b : List (List (BitVec n))) (r c : Nat) : Nat := ((b.getD r []).getD c 0).toNat

/-- The horizontal pass over view A, which writes the whole intermediate buffer: H+1 rows of W elements (10_state R51,
42_interpolation R141). -/
def setT (sz : Size) (xp : Phase) (s : State) : State :=
  s.setHidden { s.hidden with t := tabulate 16 (sz.h + 1) sz.w (hpass xp (pix s.mem s.latch.viewA)) }

/-- The vertical pass over the intermediate buffer, as the horizontal pass has left it (42_interpolation R143). -/
def verticalPass (yp : Phase) (s : State) : Nat → Nat → Nat := vpass yp (elemAt s.hidden.t)

/-- The intermediate buffer and the synthesized block have no existence beyond the command: they are discarded with it
(10_state R51, R52; 42_interpolation R148). -/
def discardBuffers (s : State) : State := s.setHidden { s.hidden with t := [], x := [] }

/-- `put(V, r, c, f(r, c))` at each of the listed positions (20_memory R65). -/
def putBlock (v : View) (f : Nat → Nat → Nat) : List (Nat × Nat) → Memory → Memory
  | [], m => m
  | p :: rest, m => putBlock v f rest (Memory.write m (pixAddr v p.1 p.2) (BitVec.ofNat 8 (f p.1 p.2)))

/-- The destination window filled with a block (42_interpolation R149, R150). -/
def storeDest (sz : Size) (f : Nat → Nat → Nat) (s : State) : State :=
  s.setMem (putBlock s.latch.viewD f (coords sz.h sz.w) s.mem)

/-- The effect of INTERP: A interpolated, to D (42_interpolation R149). -/
def interpBody (xp yp : Phase) (sz : Size) (s : State) : State :=
  let passed := setT sz xp s
  completeOk {} (discardBuffers (storeDest sz (verticalPass yp passed) passed))

/-- The effect of INTERP_AVG: A interpolated and averaged with S, to D (42_interpolation R150). -/
def interpAvgBody (xp yp : Phase) (sz : Size) (s : State) : State :=
  let passed := setT sz xp s
  completeOk {}
    (discardBuffers (storeDest sz (averageWith (verticalPass yp passed) (pix s.mem s.latch.viewS)) passed))

/-- INTERP (42_interpolation R149). -/
def execInterp (wcode hcode : SizeCode) (xphase yphase : Phase) (s : State) : Host.Outcome State Fault Refusal :=
  runCommand (.interp wcode hcode xphase yphase) (interpBody xphase yphase) s

/-- INTERP_AVG (42_interpolation R150). -/
def execInterpAvg (wcode hcode : SizeCode) (xphase yphase : Phase) (s : State) : Host.Outcome State Fault Refusal :=
  runCommand (.interpAvg wcode hcode xphase yphase) (interpAvgBody xphase yphase) s

end Sys2Proof.Machine
end

