-- ==== Sys2Proof/Machine/Statistics.lean ====
section
/-!
DEFINITION. The block statistics commands SSE and VAR (41_statistics R120 to R128), and the reduction they share with the
sub-pixel statistics commands. All arithmetic is exact (R125) and is narrowed once, on delivery.
-/

namespace Sys2Proof.Machine

/-- One pixel pair of the reduction, with d = X(r, c) − Y(r, c) (41_statistics R120). -/
def reduceStep (x y : Nat → Nat → Nat) (acc : Nat × Int) (p : Nat × Nat) : Nat × Int :=
  let d : Int := (x p.1 p.2 : Int) - (y p.1 p.2 : Int)
  (acc.1 + d.natAbs * d.natAbs, acc.2 + d)

/-- `REDUCE(X, Y)`: (SSE_ACC, SUM_ACC) (41_statistics R120). -/
def reduce (sz : Size) (x y : Nat → Nat → Nat) : Nat × Int := (coords sz.h sz.w).foldl (reduceStep x y) (0, 0)

/-- `VARIANCE(sse, sum)` before its `zext_32`: sse − (sum² >> L) (41_statistics R122). -/
def variance (sz : Size) (sse : Nat) (sum : Int) : Nat := sse - (sum.natAbs * sum.natAbs) >>> sz.l

/-- The accumulators after a reduction (10_state R50). -/
def setAccs (r : Nat × Int) (s : State) : State :=
  s.setHidden { s.hidden with sseAcc := BitVec.ofNat 32 r.1, sumAcc := BitVec.ofInt 21 r.2 }

/-- What SSE delivers: RES_SSE = zext_32(sse), RES_SUM = sext_32(sum); RES_VAR kept (41_statistics R127). -/
def sseResults (r : Nat × Int) : ResultWrites :=
  { sse := some (BitVec.ofNat 32 r.1), sum := some (BitVec.ofInt 32 r.2) }

/-- What VAR and the sub-pixel statistics commands deliver (41_statistics R128, 43_subpixel_statistics R174, R175). -/
def varResults (sz : Size) (r : Nat × Int) : ResultWrites :=
  { sse := some (BitVec.ofNat 32 r.1), var := some (BitVec.ofNat 32 (variance sz r.1 r.2)),
    sum := some (BitVec.ofInt 32 r.2) }

/-- The effect of SSE on blocks A and B (41_statistics R127). -/
def sseBody (sz : Size) (s : State) : State :=
  let r := reduce sz (pix s.mem s.latch.viewA) (pix s.mem s.latch.viewB)
  completeOk (sseResults r) (setAccs r s)

/-- The effect of VAR on blocks A and B (41_statistics R128). -/
def varBody (sz : Size) (s : State) : State :=
  let r := reduce sz (pix s.mem s.latch.viewA) (pix s.mem s.latch.viewB)
  completeOk (varResults sz r) (setAccs r s)

/-- SSE (41_statistics R127). -/
def execSse (wcode hcode : SizeCode) (s : State) : Host.Outcome State Fault Refusal :=
  runCommand (.sse wcode hcode) sseBody s

/-- VAR (41_statistics R128). -/
def execVar (wcode hcode : SizeCode) (s : State) : Host.Outcome State Fault Refusal :=
  runCommand (.var wcode hcode) varBody s

end Sys2Proof.Machine
end

