-- ==== Sys2Proof/Machine/Subpixel.lean ====
section
/-!
DEFINITION. The sub-pixel statistics commands SUBPIX_VAR and SUBPIX_AVG_VAR (43_subpixel_statistics R170 to R175): the
interpolator's block X stays inside the engine and is reduced against block B, with d = X − B (R172).
-/

namespace Sys2Proof.Machine

/-- The synthesized block (10_state R52, 43_subpixel_statistics R171). -/
def setX (sz : Size) (f : Nat → Nat → Nat) (s : State) : State :=
  s.setHidden { s.hidden with x := tabulate 8 sz.h sz.w f }

/-- The synthesized block `x` of the state `passed`, in which the horizontal pass is done, is set, reduced against block B
and discarded, and the results are delivered (43_subpixel_statistics R170). -/
def subpixBody (sz : Size) (x : Nat → Nat → Nat) (passed : State) : State :=
  let synth := setX sz x passed
  let r := reduce sz (elemAt synth.hidden.x) (pix synth.mem synth.latch.viewB)
  completeOk (varResults sz r) (discardBuffers (setAccs r synth))

/-- The effect of SUBPIX_VAR (43_subpixel_statistics R174). -/
def subpixVarBody (xp yp : Phase) (sz : Size) (s : State) : State :=
  let passed := setT sz xp s
  subpixBody sz (verticalPass yp passed) passed

/-- The effect of SUBPIX_AVG_VAR (43_subpixel_statistics R175). -/
def subpixAvgVarBody (xp yp : Phase) (sz : Size) (s : State) : State :=
  let passed := setT sz xp s
  subpixBody sz (averageWith (verticalPass yp passed) (pix s.mem s.latch.viewS)) passed

/-- SUBPIX_VAR (43_subpixel_statistics R174). -/
def execSubpixVar (wcode hcode : SizeCode) (xphase yphase : Phase) (s : State) : Host.Outcome State Fault Refusal :=
  runCommand (.subpixVar wcode hcode xphase yphase) (subpixVarBody xphase yphase) s

/-- SUBPIX_AVG_VAR (43_subpixel_statistics R175). -/
def execSubpixAvgVar (wcode hcode : SizeCode) (xphase yphase : Phase) (s : State) : Host.Outcome State Fault Refusal :=
  runCommand (.subpixAvgVar wcode hcode xphase yphase) (subpixAvgVarBody xphase yphase) s

end Sys2Proof.Machine
end

