-- ==== Sys2Proof/Machine/Dispatch.lean ====
section
/-!
DEFINITION. One arm per command: the meaning each has (30_encoding R93).
-/

namespace Sys2Proof.Machine

def exec (i : Instr) (s : State) : Host.Outcome State Fault Refusal :=
  match i with
  | .sse wcode hcode => Sys2Proof.Machine.execSse wcode hcode s
  | .var wcode hcode => Sys2Proof.Machine.execVar wcode hcode s
  | .interp wcode hcode xphase yphase => Sys2Proof.Machine.execInterp wcode hcode xphase yphase s
  | .interpAvg wcode hcode xphase yphase => Sys2Proof.Machine.execInterpAvg wcode hcode xphase yphase s
  | .subpixVar wcode hcode xphase yphase => Sys2Proof.Machine.execSubpixVar wcode hcode xphase yphase s
  | .subpixAvgVar wcode hcode xphase yphase => Sys2Proof.Machine.execSubpixAvgVar wcode hcode xphase yphase s

end Sys2Proof.Machine
end

