-- ==== Sys2Proof/Machine/Engine.lean ====
section
/-!
DEFINITION. The engine's move: the whole command in flight (20_memory R76); with nothing in flight it changes nothing
(60_exceptions R218).
-/

namespace Sys2Proof.Machine

/-- The engine's move: while BUSY, the latched word is decoded and its command run, or its error reported
(60_exceptions R202). -/
def engineMove (s : State) : Host.Outcome State Fault Refusal :=
  if s.regs.busy then
    match decodeWord (fetchWord s) with
    | .ok i => exec i s
    | .error e => .next (rejectWord e s)
  else .next s

end Sys2Proof.Machine
end

