-- ==== Sys2Proof/Machine/HostPort.lean ====
section
/-!
DEFINITION. The world outside the engine: register accesses (10_state R22 to R44), the host's own loads and stores
(20_memory R85), soft and hardware reset with the abort of a command in flight (70_reset_and_hazards R241 to R243), which
move comes next (60_exceptions R209), and the host's pseudo-instructions (30_encoding R103).
-/

namespace Sys2Proof.Machine

/-- The value of the read-only register ID (10_state R25). -/
def idValue : Word := 0x53534531

/-- The offset of every register (10_state R22). -/
def regTable : List (Nat × Reg) :=
  [(0x00, .id), (0x04, .ctrl), (0x08, .status), (0x0C, .cmd),
   (0x10, .aAddr), (0x14, .aStride), (0x18, .bAddr), (0x1C, .bStride),
   (0x20, .sAddr), (0x24, .sStride), (0x28, .dAddr), (0x2C, .dStride),
   (0x30, .resSse), (0x34, .resVar), (0x38, .resSum), (0x3C, .errAddr)]

/-- The register at an offset of the window; none at a misaligned offset and outside it (10_state R22, R23). -/
def regAt (off : Nat) : Option Reg := (regTable.find? (fun e => decide (e.1 = off))).map (·.2)

/-- The register a bus access of a width reaches: only 32-bit accesses reach one (10_state R23). -/
def regAccess (p : Platform) (addr : Word) (width : Nat) : Option Reg :=
  if width = 32 then regAt (addr - p.regBase).toNat else none

/-- What a read of a register returns, without side effect (10_state R24 to R43). -/
def readReg (g : Reg) (r : Regs) : Word :=
  match g with
  | .id => idValue
  | .ctrl => ctrlWord r
  | .status => statusWord r
  | .cmd => r.cmd
  | .aAddr => r.viewA.addr
  | .aStride => r.viewA.stride
  | .bAddr => r.viewB.addr
  | .bStride => r.viewB.stride
  | .sAddr => r.viewS.addr
  | .sStride => r.viewS.stride
  | .dAddr => r.viewD.addr
  | .dStride => r.viewD.stride
  | .resSse => r.resSse
  | .resVar => r.resVar
  | .resSum => r.resSum
  | .errAddr => r.errAddr

/-- The destination bytes of a command a reset aborts take free values; a command that writes no memory leaves it as it
is (70_reset_and_hazards R243). One that will fail its checks has no destination in flight: log entry 9. A byte that is
no RAM takes nothing: log entry 11. -/
def abortDraws (s : State) : State :=
  match inFlight s with
  | none => s
  | some (i, sz) => drawBytes (destAddrs i s.latch sz) s

/-- The command a reset would abort covers memory with side effects, so that what it has done is unspecified (20_memory
R71; log entry 12). A command whose windows overlap or hold an address that the launch does not admit is not among
these: 60_exceptions R219 and 70_reset_and_hazards R256 say that a model faults such a command, R243 that a reset ends
the command in flight, and the spec does not say which holds where the reset comes first. Here the reset ends it without
a fault. DESIGN CHOICE, log entry 30. -/
def abortUnknown (s : State) : Bool :=
  match inFlight s with
  | none => false
  | some (i, sz) => (accessAddrs i s.latch sz).any (fun a => decide (s.platform.kindOf a = some .device))

/-- A soft reset: the command in flight is aborted and every register takes its reset value (70_reset_and_hazards R242,
R243). -/
def softReset (s : State) : Host.Outcome State Fault Refusal :=
  if abortUnknown s then .refused .nonIdempotent else .next (resetBlock (abortDraws s))

/-- A write of `v` to CTRL (10_state R27): SOFT_RESET dominates; IRQ_EN is honoured whether or not BUSY; a START while
BUSY is ignored. -/
def writeCtrl (v : Word) (s : State) : Host.Outcome State Fault Refusal :=
  if v.getLsbD 2 then softReset s
  else if v.getLsbD 0 && !s.regs.busy then .next (acceptStart (s.setRegs { s.regs with irqEn := v.getLsbD 1 }))
  else .next (s.setRegs { s.regs with irqEn := v.getLsbD 1 })

/-- A write to CMD or to a view register: ignored while BUSY (10_state R39). -/
def writeConfig (r : Regs) (s : State) : State := if s.regs.busy then s else s.setRegs r

/-- A write of `v` to a register; a read-only register ignores it (10_state R24, R27, R33 to R39). -/
def writeReg (g : Reg) (v : Word) (s : State) : Host.Outcome State Fault Refusal :=
  match g with
  | .id => .next s
  | .ctrl => writeCtrl v s
  | .status => .next (acknowledge v s)
  | .cmd => .next (writeConfig { s.regs with cmd := v } s)
  | .aAddr => .next (writeConfig { s.regs with viewA := { s.regs.viewA with addr := v } } s)
  | .aStride => .next (writeConfig { s.regs with viewA := { s.regs.viewA with stride := v } } s)
  | .bAddr => .next (writeConfig { s.regs with viewB := { s.regs.viewB with addr := v } } s)
  | .bStride => .next (writeConfig { s.regs with viewB := { s.regs.viewB with stride := v } } s)
  | .sAddr => .next (writeConfig { s.regs with viewS := { s.regs.viewS with addr := v } } s)
  | .sStride => .next (writeConfig { s.regs with viewS := { s.regs.viewS with stride := v } } s)
  | .dAddr => .next (writeConfig { s.regs with viewD := { s.regs.viewD with addr := v } } s)
  | .dStride => .next (writeConfig { s.regs with viewD := { s.regs.viewD with stride := v } } s)
  | .resSse => .next s
  | .resVar => .next s
  | .resSum => .next s
  | .errAddr => .next s

/-- A write through the register port (10_state R23). While `rst` is asserted the block answers none
(70_reset_and_hazards R241). -/
def hostRegWrite (addr : Word) (width : Nat) (v : Word) (s : State) : Host.Outcome State Fault Refusal :=
  if s.rst then .refused .accessDuringReset
  else
    match regAccess s.platform addr width with
    | none => .refused .registerAccess
    | some g => writeReg g v s

/-- A read through the register port (10_state R23, R24). -/
def hostRegRead (addr : Word) (width : Nat) (s : State) : Host.Outcome State Fault Refusal :=
  if s.rst then .refused .accessDuringReset
  else
    match regAccess s.platform addr width with
    | none => .refused .registerAccess
    | some g => .next (s.respond (.word (readReg g s.regs)))

/-- Whether an address is in a window of the command in flight (20_memory R85). -/
def inFlightWindow (s : State) (a : Nat) : Bool :=
  match inFlight s with
  | none => false
  | some (i, sz) => inWindows i s.latch sz a

/-- Whether an address is in the destination window of the command in flight (20_memory R85). -/
def inFlightDest (s : State) (a : Nat) : Bool :=
  match inFlight s with
  | none => false
  | some (i, sz) => inDest i s.latch sz a

/-- The host stores a byte of pixel memory; into a window of the command in flight, whatever the platform has there, it is
a race (20_memory R85, 60_exceptions R219). Elsewhere outside RAM: log entry 19. -/
def hostStore (addr : Word) (v : Byte) (s : State) : Host.Outcome State Fault Refusal :=
  if inFlightWindow s addr.toNat then .fault .race
  else if s.platform.kindOf addr.toNat = some .ram then .next (s.setMem (Memory.write s.mem addr.toNat v))
  else .refused .hostAccessOutsideRam

/-- The host loads a byte of pixel memory; from the destination window of the command in flight, whatever the platform has
there, it gets a free byte (20_memory R85, 60_exceptions R219; log entry 10). Elsewhere outside RAM: log entry 19. -/
def hostLoad (addr : Word) (s : State) : Host.Outcome State Fault Refusal :=
  if inFlightDest s addr.toNat then
    .next ((s.respond (.byte (Config.freeByte s.draws))).setDraws (s.draws + 1))
  else if s.platform.kindOf addr.toNat = some .ram then .next (s.respond (.byte (Memory.byteAt s.mem addr.toNat)))
  else .refused .hostAccessOutsideRam

/-- One access of the host. -/
def hostMove (m : HostMove) (s : State) : Host.Outcome State Fault Refusal :=
  match m with
  | .regWrite addr width v => hostRegWrite addr width v s
  | .regRead addr width => hostRegRead addr width s
  | .memStore addr v => hostStore addr v s
  | .memLoad addr => hostLoad addr s

/-- `rst` is asserted: a command in flight is aborted and every register takes its reset value (70_reset_and_hazards
R241, R243). -/
def assertReset (s : State) : Host.Outcome State Fault Refusal :=
  if abortUnknown s then .refused .nonIdempotent else .next ((resetBlock (abortDraws s)).setRst true)

/-- `rst` is released: every piece of state holds the value of 10_state R56 (70_reset_and_hazards R241). -/
def releaseReset (s : State) : State := if s.rst then (resetBlock s).setRst false else s

/-- Whose turn it is. -/
inductive Turn where
  | engine
  | host (m : HostMove)
  | assertRst
  | releaseRst
deriving DecidableEq, Repr

/-- The next turn and the state with it taken from the pending moves. With nothing pending the engine moves
(70_reset_and_hazards R255). A waiting host leaves the engine the turn until BUSY is 0 (30_encoding R102; log entry 21);
while `rst` is asserted its poll is the read of STATUS that it stands for, which the block does not answer
(70_reset_and_hazards R241; log entry 14). -/
def takeTurn (s : State) : Turn × State :=
  match s.inputs with
  | [] => (.engine, s)
  | .engineTurn :: rest => (.engine, s.setInputs rest)
  | .wait :: rest =>
    if s.rst then (.host (.regRead (s.platform.regBase + 0x08) 32), s.setInputs rest)
    else if s.regs.busy then (.engine, s)
    else (.engine, s.setInputs rest)
  | .host m :: rest => (.host m, s.setInputs rest)
  | .assertRst :: rest => (.assertRst, s.setInputs rest)
  | .releaseRst :: rest => (.releaseRst, s.setInputs rest)

/-- A 32-bit write of `v` to a register at REG_BASE plus its offset: `wr` of 30_encoding R102. -/
def wr (p : Platform) (off : Nat) (v : Word) : Input := .host (.regWrite (p.regBase + BitVec.ofNat 32 off) 32 v)

/-- A 32-bit read of the register at REG_BASE plus an offset: `rd` of 30_encoding R102. -/
def rd (p : Platform) (off : Nat) : Input := .host (.regRead (p.regBase + BitVec.ofNat 32 off) 32)

/-- Stores of consecutive bytes: `mem` of 30_encoding R102. DESIGN CHOICE, log entry 28: bytes past 0xFFFF_FFFF go on from
address 0. -/
def memBytes (addr : Word) (bytes : List Byte) : List Input :=
  bytes.mapIdx fun k b => .host (.memStore (addr + BitVec.ofNat 32 k) b)

/-- The pseudo-instruction `run`, with CTRL = 0x3 where the interrupt is to be enabled (30_encoding R103). -/
def runMoves (p : Platform) (i : Instr) (irq : Bool) : List Input :=
  [wr p 0x0C (encode i), wr p 0x04 (if irq then 3 else 1)]

/-- The pseudo-instruction `clear` (30_encoding R103). -/
def clearMove (p : Platform) : Input := wr p 0x08 6

/-- The pseudo-instruction `reset` (30_encoding R103). -/
def resetMove (p : Platform) : Input := wr p 0x04 4

end Sys2Proof.Machine
end

