-- ==== Sys2Proof/Machine/Step.lean ====
section
/-!
DEFINITION. One step: the move of whoever's turn it is (60_exceptions R209).
-/

namespace Sys2Proof.Machine

/-- One step of the machine. -/
def step (s : State) : Host.Outcome State Fault Refusal :=
  match takeTurn s with
  | (.engine, s') => engineMove s'
  | (.host m, s') => hostMove m s'
  | (.assertRst, s') => assertReset s'
  | (.releaseRst, s') => .next (releaseReset s')

/-- The state in which a command word has just been written to CMD and started (10_state R27), with the engine to move:
the machine has no fetch from memory (20_memory R81), so this stands for the host's two register writes. Log entry 2. -/
def State.withFetchWord (s : State) (nbits w : Nat) : State :=
  acceptStart (((s.setRst false).setInputs (.engineTurn :: s.inputs)).setRegs
    { s.regs with cmd := BitVec.ofNat 32 (w % 2 ^ nbits) })

end Sys2Proof.Machine
end

