-- ==== Sys2Proof/Safety.lean ====
section
/-!
DEFINITION. The terms claims are stated in: a legal configuration (60_exceptions R202), a clean launch
(70_reset_and_hazards R256), the sums of the statistics commands and the samples of the interpolator as plain
arithmetic (41_statistics R120, 42_interpolation R141, R143, R147), and the invariant of the machine.
-/

namespace Sys2Proof.Machine

/-- The command has the catalogue size `sz` and passes every configuration check (60_exceptions R202): each used view's
stride is at least W (20_memory R70) and its window ends at 0xFFFF_FFFF or before (20_memory R69). -/
abbrev LegalConfig (i : Instr) (l : Latch) (sz : Size) : Prop :=
  sizeDecode i.wcode i.hcode = some sz ∧
    ∀ u ∈ usedViews i l, sz.w ≤ u.view.stride.toNat ∧ u.lastAddr sz ≤ 0xFFFFFFFF

/-- The destination window shares no byte with a window the command reads (70_reset_and_hazards R251, R256). -/
abbrev NoOverlap (i : Instr) (l : Latch) (sz : Size) : Prop :=
  ∀ d ∈ usedViews i l, d.role = .dest → ∀ u ∈ usedViews i l, u.role ≠ .dest → ∀ a ∈ d.addrs sz, a ∉ u.addrs sz

/-- A clean launch of a command (70_reset_and_hazards R256, premises 3 to 5): legal, every byte of every window in the
launch memory, no overlap. -/
abbrev CleanLaunch (i : Instr) (sz : Size) (s : State) : Prop :=
  LegalConfig i s.latch sz ∧ (∀ a ∈ accessAddrs i s.latch sz, s.platform.kindOf a = some .ram) ∧
    NoOverlap i s.latch sz

/-- Σ (x − y)² over the block (41_statistics R120). -/
def sumSquares (sz : Size) (x y : Nat → Nat → Nat) : Int :=
  ∑ r ∈ Finset.range sz.h, ∑ c ∈ Finset.range sz.w, ((x r c : Int) - (y r c : Int)) ^ 2

/-- Σ (x − y) over the block (41_statistics R120). -/
def sumDiffs (sz : Size) (x y : Nat → Nat → Nat) : Int :=
  ∑ r ∈ Finset.range sz.h, ∑ c ∈ Finset.range sz.w, ((x r c : Int) - (y r c : Int))

/-- `sse − (sum * sum) / (W * H)`, the division truncating (41_statistics R122). -/
def varianceOf (sz : Size) (x y : Nat → Nat → Nat) : Int :=
  sumSquares sz x y - sumDiffs sz x y ^ 2 / ((sz.w : Int) * (sz.h : Int))

/-- round((s0 · (128 − 16p) + s1 · 16p) / 128), a half up (42_interpolation R141, R146). -/
def tapSample (p : Phase) (s0 s1 : Nat) : Nat := (s0 * (128 - 16 * p.toNat) + s1 * (16 * p.toNat) + 64) / 128

/-- The interpolated sample at (r, c), the rounding of each pass included, without the clamp that never acts
(42_interpolation R141, R143, R144). -/
def sampleAt (xp yp : Phase) (src : Nat → Nat → Nat) (r c : Nat) : Nat :=
  tapSample yp (tapSample xp (src r c) (src r (c + 1))) (tapSample xp (src (r + 1) c) (src (r + 1) (c + 1)))

/-- The interpolated sample averaged with the second prediction, a half up (42_interpolation R147). -/
def averagedAt (xp yp : Phase) (src snd : Nat → Nat → Nat) (r c : Nat) : Nat :=
  (sampleAt xp yp src r c + snd r c + 1) / 2

/-- The engine moves next: nothing is pending, its turn is named, or the host waits (log entries 1 and 21). -/
abbrev State.EngineMoves (s : State) : Prop :=
  s.inputs = [] ∨ s.inputs.head? = some .engineTurn ∨ (s.inputs.head? = some .wait ∧ s.rst = false)

/-- The invariant of the machine: pixel memory is in its canonical form; ERR = 0 exactly when ERR_CODE = 0, and no
reserved code is produced (10_state R32, 60_exceptions R201); while BUSY, DONE = ERR = 0 (10_state R30); ERR_ADDR is 0
unless the error is BUS_ERR (10_state R43); no intermediate buffer and no synthesized block outlives a command (10_state
R51, R52); while `rst` is asserted the registers hold their reset values. Three points of it are the model's choice. That T
and X are empty after a reset, where 10_state R56 leaves them unspecified, is log entry 17; that they are empty while a
command that the platform never answers is in flight is log entry 18. Of the last clause the spec has only the values at
the release (70_reset_and_hazards R241): that they hold from the assertion on is log entry 14. -/
abbrev State.Inv (s : State) : Prop :=
  Memory.wf s.mem ∧
  (s.regs.err = false ↔ s.regs.errCode = 0) ∧
  s.regs.errCode.toNat ≤ 6 ∧
  (s.regs.busy = true → s.regs.done = false ∧ s.regs.err = false) ∧
  (s.regs.errCode ≠ 6 → s.regs.errAddr = 0) ∧
  (s.hidden.t = [] ∧ s.hidden.x = []) ∧
  (s.rst = true → s.regs = Regs.reset)

end Sys2Proof.Machine
end

