-- ==== Sys2Proof/Certificates/Slice0/Obligations.lean ====
section
/-!
DEFINITION. The statements for the provers, from the numbered rules of spec/.
-/

open Sys2Proof Sys2Proof.Machine

/-! ## The command word -/

/-- Command words written out from 30_encoding R91, R93 and R101, and what they stand for (95_test_vectors E1 to E8, E21).
-/
def Obligations.SpecWordsDecode : Prop :=
  decodeWord 0x00000091 = .ok (.sse 1 1) ∧ decodeWord 0x00000092 = .ok (.var 1 1) ∧
  decodeWord 0x00001013 = .ok (.interp 1 0 4 0) ∧ decodeWord 0x00009004 = .ok (.interpAvg 0 0 4 4) ∧
  decodeWord 0x0000FC05 = .ok (.subpixVar 0 0 7 7) ∧ decodeWord 0x0000C896 = .ok (.subpixAvgVar 1 1 2 6) ∧
  decodeWord 0x00000241 = .ok (.sse 4 4) ∧ decodeWord 0x00000403 = .ok (.interp 0 0 1 0)

/-- No bit of a command is lost on the way to its word and back (30_encoding R91, R101). -/
def Obligations.DecodeOfEncode : Prop := ∀ i : Instr, decodeWord (encode i) = .ok i

/-- Every word that decodes is the word of what it decodes to: no field is ignored (30_encoding R92). -/
def Obligations.EncodeOfDecode : Prop := ∀ (w : Word) (i : Instr), decodeWord w = .ok i → encode i = w

/-- The decoder rejects a word exactly when 30_encoding R99 gives it ILLEGAL_OP or RSVD_FIELD, and OP is looked at
before the reserved fields (60_exceptions R202). The encodings that R99 gives BAD_SIZE, codes 5 to 7 and pairs outside
the catalogue, are not rejected here: size legality is no part of the opcode table's masks (R104), and that it is
therefore checked where the command runs, not where its word is decoded, is log entry 23; BadSizeEndsCommand says how
such a command ends. -/
def Obligations.WordsRejectedByRule : Prop :=
  ∀ w : Word,
    (decodeWord w = .error .illegalOp ↔ (w.toNat % 16 = 0 ∨ 6 < w.toNat % 16)) ∧
    (decodeWord w = .error .rsvdField ↔
      (1 ≤ w.toNat % 16 ∧ w.toNat % 16 ≤ 6 ∧
        (w.toNat / 2 ^ 16 ≠ 0 ∨ (w.toNat % 16 ≤ 2 ∧ w.toNat / 2 ^ 10 % 64 ≠ 0))))

/-- A word that decodes selects its command's row of the opcode table and no other (30_encoding R104). -/
def Obligations.WordSelectsOneRow : Prop :=
  ∀ (w : Word) (i : Instr), decodeWord w = .ok i →
    i.row ∈ opcodeRows ∧ ∀ row ∈ opcodeRows, row.selects w = true ↔ row = i.row

/-- The bytes of a command, low byte first, decode to it and leave what follows (20_memory R63; log entry 24). -/
def Obligations.DecodeBytesOfEncode : Prop :=
  ∀ (i : Instr) (rest : List Byte), decode (encodeBytes i ++ rest) = .ok (i, rest)

/-! ## A step -/

/-- While BUSY, on the engine's turn, a step is the latched command (20_memory R76, R81). Whose turn it is is the model's
choice: nothing pending and the named turn, which is used up, are log entry 1, the waiting host, which keeps waiting, is
log entry 21. -/
def Obligations.StepRunsLatchedCommand : Prop :=
  ∀ (s : State) (i : Instr), s.regs.busy = true → decodeWord s.latch.cmd = .ok i →
    (s.inputs = [] → step s = exec i s) ∧
    (∀ rest, s.inputs = .engineTurn :: rest → step s = exec i { s with inputs := rest }) ∧
    (∀ rest, s.rst = false → s.inputs = .wait :: rest → step s = exec i s)

/-- A started word that decodes to no command ends with ILLEGAL_OP or RSVD_FIELD and no other effect (30_encoding R92,
R99; 60_exceptions R201, R203, R206), on each of the engine's turns (log entries 1 and 21). A word whose only fault is
its size does decode (log entry 23) and is BadSizeEndsCommand's. -/
def Obligations.BadWordEndsWithError : Prop :=
  ∀ (s : State) (code : BitVec 4), s.regs.busy = true →
    ((code = 1 ∧ (s.latch.cmd.toNat % 16 = 0 ∨ 6 < s.latch.cmd.toNat % 16)) ∨
     (code = 2 ∧ 1 ≤ s.latch.cmd.toNat % 16 ∧ s.latch.cmd.toNat % 16 ≤ 6 ∧
      (s.latch.cmd.toNat / 2 ^ 16 ≠ 0 ∨ (s.latch.cmd.toNat % 16 ≤ 2 ∧ s.latch.cmd.toNat / 2 ^ 10 % 64 ≠ 0)))) →
    (s.inputs = [] → step s = .next { s with
      regs := { s.regs with errCode := code, err := true, errAddr := 0, busy := false, done := true } }) ∧
    (∀ rest, s.inputs = .engineTurn :: rest → step s = .next { s with
      inputs := rest
      regs := { s.regs with errCode := code, err := true, errAddr := 0, busy := false, done := true } }) ∧
    (∀ rest, s.rst = false → s.inputs = .wait :: rest → step s = .next { s with
      regs := { s.regs with errCode := code, err := true, errAddr := 0, busy := false, done := true } })

/-- "every register keeps its value while IDLE" (60_exceptions R218): with nothing in flight the engine's turn changes
nothing, and ends a host's wait (30_encoding R102; the turns are the model's choice, log entries 1 and 21). -/
def Obligations.IdleStepChangesNothing : Prop :=
  ∀ s : State, s.regs.busy = false →
    (s.inputs = [] → step s = .next s) ∧
    (∀ rest, s.inputs = .engineTurn :: rest → step s = .next { s with inputs := rest }) ∧
    (∀ rest, s.rst = false → s.inputs = .wait :: rest → step s = .next { s with inputs := rest })

/-- The state after reset meets the invariant: its clauses about the registers follow from their reset values (10_state
R56). The clause that T and X are empty is not R56's, which leaves both unspecified after reset: it is the model's
choice, log entry 17, made to agree with 10_state R51 and R52, by which neither outlives a command. -/
def Obligations.ResetMeetsInvariant : Prop := State.reset.Inv

/-- Every step of every agent, from any state that meets the invariant, leads to one that meets it. Three points of it
are the model's choice. That T and X are empty after a reset, where 10_state R56 leaves them unspecified, is log entry
17; that they are empty while a command that the platform never answers is in flight is log entry 18; that the registers
hold their reset values from the assertion of `rst` on is log entry 14, for the spec gives the values at the release
(70_reset_and_hazards R241). -/
def Obligations.StepKeepsInvariant : Prop := ∀ s t : State, s.Inv → step s = .next t → t.Inv

/-- BUSY is set only by a host write of CTRL with START, without SOFT_RESET; it is cleared only by a completion on the
engine's turn, which sets DONE at the same instant, by a host write of CTRL with SOFT_RESET, or by the reset input, and
these two reset every register (10_state R30, R31, R56). The engine's turns are those of log entries 1 and 21; that the
registers reset at the assertion of `rst` is log entry 14. -/
def Obligations.BusyChangesOnlyAsStated : Prop :=
  ∀ s t : State, step s = .next t →
    (s.regs.busy = false → t.regs.busy = true →
      ∃ addr v rest, s.inputs = .host (.regWrite addr 32 v) :: rest ∧ (addr - s.platform.regBase).toNat = 4 ∧
        v.getLsbD 0 = true ∧ v.getLsbD 2 = false) ∧
    (s.regs.busy = true → t.regs.busy = false →
      (s.EngineMoves ∧ t.regs.done = true) ∨
      ((∃ addr v rest, s.inputs = .host (.regWrite addr 32 v) :: rest ∧ (addr - s.platform.regBase).toNat = 4 ∧
        v.getLsbD 2 = true) ∧ t.regs = State.reset.regs) ∨
      ((∃ rest, s.inputs = .assertRst :: rest ∨ s.inputs = .releaseRst :: rest) ∧ t.regs = State.reset.regs))

/-- RES_SSE, RES_VAR and RES_SUM change only at a successful completion or by a reset (10_state R44). -/
def Obligations.ResultsChangeOnlyAtSuccess : Prop :=
  ∀ s t : State, s.Inv → step s = .next t →
    (t.regs.resSse ≠ s.regs.resSse ∨ t.regs.resVar ≠ s.regs.resVar ∨ t.regs.resSum ≠ s.regs.resSum) →
    t.regs = State.reset.regs ∨
      (s.regs.busy = true ∧ t.regs.busy = false ∧ t.regs.done = true ∧ t.regs.err = false)

/-- A byte of pixel memory changes only by a host store to it or by the command in flight, and then only in the window
of view D of an INTERP or INTERP_AVG (20_memory R61, R66; 70_reset_and_hazards R243) that passes its configuration
checks. That a reset which aborts a BUSY INTERP or INTERP_AVG that will fail its checks changes no byte of D either,
where R243 leaves D unspecified, is the model's deduction from 60_exceptions R203, by which such a command makes no
pixel access: log entry 9. -/
def Obligations.MemoryChangesOnlyAsStated : Prop :=
  ∀ (s t : State) (a : Nat), step s = .next t → Memory.read t.mem a ≠ Memory.read s.mem a →
    (∃ addr v rest, s.inputs = .host (.memStore addr v) :: rest ∧ a = addr.toNat) ∨
    (∃ i sz, s.regs.busy = true ∧ decodeWord s.latch.cmd = .ok i ∧ LegalConfig i s.latch sz ∧
      ((∃ wc hc xp yp, i = .interp wc hc xp yp) ∨ (∃ wc hc xp yp, i = .interpAvg wc hc xp yp)) ∧
      ∃ r c, r < sz.h ∧ c < sz.w ∧ a = pixAddr s.latch.viewD r c)

/-! ## The statistics commands -/

/-- SSE at a clean launch delivers the exact Σ d² and Σ d and keeps RES_VAR (41_statistics R120, R121, R125, R127). -/
def Obligations.SseCompletes : Prop :=
  ∀ (wc hc : SizeCode) (sz : Size) (s : State), CleanLaunch (.sse wc hc) sz s →
    ∃ t, exec (.sse wc hc) s = .next t ∧
      t.regs = { s.regs with busy := false, done := true, resSse := t.regs.resSse, resSum := t.regs.resSum } ∧
      (t.regs.resSse.toNat : Int) = sumSquares sz (pix s.mem s.latch.viewA) (pix s.mem s.latch.viewB) ∧
      t.regs.resSum.toInt = sumDiffs sz (pix s.mem s.latch.viewA) (pix s.mem s.latch.viewB) ∧
      t = { s with regs := t.regs, hidden := t.hidden }

/-- VAR at a clean launch delivers the exact Σ d², Σ d and Σ d² − (Σ d)² / N (41_statistics R120 to R125, R128). -/
def Obligations.VarCompletes : Prop :=
  ∀ (wc hc : SizeCode) (sz : Size) (s : State), CleanLaunch (.var wc hc) sz s →
    ∃ t, exec (.var wc hc) s = .next t ∧
      t.regs = { s.regs with busy := false, done := true, resSse := t.regs.resSse, resVar := t.regs.resVar,
                             resSum := t.regs.resSum } ∧
      (t.regs.resSse.toNat : Int) = sumSquares sz (pix s.mem s.latch.viewA) (pix s.mem s.latch.viewB) ∧
      (t.regs.resVar.toNat : Int) = varianceOf sz (pix s.mem s.latch.viewA) (pix s.mem s.latch.viewB) ∧
      t.regs.resSum.toInt = sumDiffs sz (pix s.mem s.latch.viewA) (pix s.mem s.latch.viewB) ∧
      t = { s with regs := t.regs, hidden := t.hidden }

/-- SUBPIX_VAR at a clean launch delivers the statistics of A interpolated against B, and writes no memory
(43_subpixel_statistics R170 to R172, R174). -/
def Obligations.SubpixVarCompletes : Prop :=
  ∀ (wc hc : SizeCode) (xp yp : Phase) (sz : Size) (s : State), CleanLaunch (.subpixVar wc hc xp yp) sz s →
    ∃ t, exec (.subpixVar wc hc xp yp) s = .next t ∧
      t.regs = { s.regs with busy := false, done := true, resSse := t.regs.resSse, resVar := t.regs.resVar,
                             resSum := t.regs.resSum } ∧
      (t.regs.resSse.toNat : Int) =
        sumSquares sz (sampleAt xp yp (pix s.mem s.latch.viewA)) (pix s.mem s.latch.viewB) ∧
      (t.regs.resVar.toNat : Int) =
        varianceOf sz (sampleAt xp yp (pix s.mem s.latch.viewA)) (pix s.mem s.latch.viewB) ∧
      t.regs.resSum.toInt = sumDiffs sz (sampleAt xp yp (pix s.mem s.latch.viewA)) (pix s.mem s.latch.viewB) ∧
      t = { s with regs := t.regs, hidden := t.hidden }

/-- SUBPIX_AVG_VAR at a clean launch delivers the statistics of A interpolated and averaged with S against B, and writes
no memory (43_subpixel_statistics R170 to R172, R175). -/
def Obligations.SubpixAvgVarCompletes : Prop :=
  ∀ (wc hc : SizeCode) (xp yp : Phase) (sz : Size) (s : State), CleanLaunch (.subpixAvgVar wc hc xp yp) sz s →
    ∃ t, exec (.subpixAvgVar wc hc xp yp) s = .next t ∧
      t.regs = { s.regs with busy := false, done := true, resSse := t.regs.resSse, resVar := t.regs.resVar,
                             resSum := t.regs.resSum } ∧
      (t.regs.resSse.toNat : Int) = sumSquares sz
        (averagedAt xp yp (pix s.mem s.latch.viewA) (pix s.mem s.latch.viewS)) (pix s.mem s.latch.viewB) ∧
      (t.regs.resVar.toNat : Int) = varianceOf sz
        (averagedAt xp yp (pix s.mem s.latch.viewA) (pix s.mem s.latch.viewS)) (pix s.mem s.latch.viewB) ∧
      t.regs.resSum.toInt = sumDiffs sz
        (averagedAt xp yp (pix s.mem s.latch.viewA) (pix s.mem s.latch.viewS)) (pix s.mem s.latch.viewB) ∧
      t = { s with regs := t.regs, hidden := t.hidden }

/-- Where every statistics reduction leaves the accumulators, the exact Σ d² and Σ d of its two blocks (10_state R50;
41_statistics R124): 32 and 21 bits lose nothing. That they keep these values after the command is the model's choice, log
entry 18. -/
def Obligations.AccumulatorsHoldExactSums : Prop :=
  ∀ (i : Instr) (sz : Size) (s : State) (x : Nat → Nat → Nat), CleanLaunch i sz s →
    (((∃ wc hc, i = .sse wc hc) ∨ (∃ wc hc, i = .var wc hc)) ∧ x = pix s.mem s.latch.viewA ∨
     (∃ wc hc xp yp, i = .subpixVar wc hc xp yp ∧ x = sampleAt xp yp (pix s.mem s.latch.viewA)) ∨
     (∃ wc hc xp yp, i = .subpixAvgVar wc hc xp yp ∧
       x = averagedAt xp yp (pix s.mem s.latch.viewA) (pix s.mem s.latch.viewS))) →
    ∃ t, exec i s = .next t ∧
      (t.hidden.sseAcc.toNat : Int) = sumSquares sz x (pix s.mem s.latch.viewB) ∧
      t.hidden.sumAcc.toInt = sumDiffs sz x (pix s.mem s.latch.viewB)

/-- The bounds of the results: RES_SSE ≤ 266,342,400 and |RES_SUM| ≤ 1,044,480 after every statistics command, and RES_VAR ≤
RES_SSE after the three that write it (41_statistics R121, R123, R124; 95_test_vectors W3). -/
def Obligations.ResultBounds : Prop :=
  ∀ (i : Instr) (sz : Size) (s : State), CleanLaunch i sz s →
    ((∃ wc hc, i = .sse wc hc) ∨ (∃ wc hc, i = .var wc hc) ∨ (∃ wc hc xp yp, i = .subpixVar wc hc xp yp) ∨
      (∃ wc hc xp yp, i = .subpixAvgVar wc hc xp yp)) →
    ∃ t, exec i s = .next t ∧ t.regs.resSse.toNat ≤ 266342400 ∧ t.regs.resSum.toInt.natAbs ≤ 1044480 ∧
      ((∃ wc hc, i = .sse wc hc) ∨ t.regs.resVar.toNat ≤ t.regs.resSse.toNat)

/-- "SSE(X, Y) = SSE(Y, X); VAR(X, Y) = VAR(Y, X); SUM(X, Y) = −SUM(Y, X)" (41_statistics R126, 95_test_vectors W2). -/
def Obligations.SwappedViewsNegateSum : Prop :=
  ∀ (wc hc : SizeCode) (sz : Size) (s : State), CleanLaunch (.var wc hc) sz s →
    ∃ t u, exec (.var wc hc) s = .next t ∧
      exec (.var wc hc) { s with latch := { s.latch with viewA := s.latch.viewB, viewB := s.latch.viewA } } = .next u ∧
      u.regs.resSse = t.regs.resSse ∧ u.regs.resVar = t.regs.resVar ∧ u.regs.resSum.toInt = -t.regs.resSum.toInt

/-- "if X(r, c) − Y(r, c) = k for every pixel then SSE = N·k², SUM = N·k, VAR = 0" (41_statistics R126). -/
def Obligations.UniformDifferenceHasNoVariance : Prop :=
  ∀ (wc hc : SizeCode) (sz : Size) (s : State) (k : Int), CleanLaunch (.var wc hc) sz s →
    (∀ r < sz.h, ∀ c < sz.w,
      (pix s.mem s.latch.viewA r c : Int) - (pix s.mem s.latch.viewB r c : Int) = k) →
    ∃ t, exec (.var wc hc) s = .next t ∧ (t.regs.resSse.toNat : Int) = sz.w * sz.h * k ^ 2 ∧
      t.regs.resSum.toInt = sz.w * sz.h * k ∧ t.regs.resVar = 0

/-- "At phase (0, 0), SUBPIX_VAR gives the same results as VAR on the same views A and B" (43_subpixel_statistics R173). -/
def Obligations.SubpixVarAtPhaseZeroIsVar : Prop :=
  ∀ (wc hc : SizeCode) (sz : Size) (s : State), CleanLaunch (.subpixVar wc hc 0 0) sz s →
    ∃ t u, exec (.subpixVar wc hc 0 0) s = .next t ∧ exec (.var wc hc) s = .next u ∧ t.regs = u.regs

/-- "Its results are those of VAR applied to a memory block holding X" (43_subpixel_statistics R170), for both commands:
whatever other state has X as its block A and the same samples as its block B. -/
def Obligations.SubpixIsVarOfStoredBlock : Prop :=
  ∀ (wc hc : SizeCode) (xp yp : Phase) (sz : Size) (s u : State), CleanLaunch (.var wc hc) sz u →
    (∀ r < sz.h, ∀ c < sz.w, pix u.mem u.latch.viewB r c = pix s.mem s.latch.viewB r c) →
    (CleanLaunch (.subpixVar wc hc xp yp) sz s →
      (∀ r < sz.h, ∀ c < sz.w,
        pix u.mem u.latch.viewA r c = sampleAt xp yp (pix s.mem s.latch.viewA) r c) →
      ∃ t v, exec (.subpixVar wc hc xp yp) s = .next t ∧ exec (.var wc hc) u = .next v ∧
        t.regs.resSse = v.regs.resSse ∧ t.regs.resVar = v.regs.resVar ∧ t.regs.resSum = v.regs.resSum) ∧
    (CleanLaunch (.subpixAvgVar wc hc xp yp) sz s →
      (∀ r < sz.h, ∀ c < sz.w, pix u.mem u.latch.viewA r c =
        averagedAt xp yp (pix s.mem s.latch.viewA) (pix s.mem s.latch.viewS) r c) →
      ∃ t v, exec (.subpixAvgVar wc hc xp yp) s = .next t ∧ exec (.var wc hc) u = .next v ∧
        t.regs.resSse = v.regs.resSse ∧ t.regs.resVar = v.regs.resVar ∧ t.regs.resSum = v.regs.resSum)

/-- What SSE, VAR, SUBPIX_VAR and SUBPIX_AVG_VAR leave unchanged, however they end: all of pixel memory, CTRL, CMD and the
views, the latch; and SSE keeps RES_VAR (10_state R45; 20_memory R61; 43_subpixel_statistics R171). -/
def Obligations.StatisticsCommandsFrame : Prop :=
  ∀ (i : Instr) (s t : State), exec i s = .next t →
    ((∃ wc hc, i = .sse wc hc) ∨ (∃ wc hc, i = .var wc hc) ∨ (∃ wc hc xp yp, i = .subpixVar wc hc xp yp) ∨
      (∃ wc hc xp yp, i = .subpixAvgVar wc hc xp yp)) →
    (∀ a, Memory.byteAt t.mem a = Memory.byteAt s.mem a) ∧ t.mem = s.mem ∧ t.latch = s.latch ∧
    t.regs.irqEn = s.regs.irqEn ∧ t.regs.cmd = s.regs.cmd ∧ t.regs.viewA = s.regs.viewA ∧
    t.regs.viewB = s.regs.viewB ∧ t.regs.viewS = s.regs.viewS ∧ t.regs.viewD = s.regs.viewD ∧
    ((∃ wc hc, i = .sse wc hc) → t.regs.resVar = s.regs.resVar) ∧
    t.rst = s.rst ∧ t.platform = s.platform ∧ t.inputs = s.inputs ∧ t.responses = s.responses

/-! ## The interpolation commands -/

/-- INTERP at a clean launch writes the interpolated block to the window of D, one byte a sample, and nothing else of pixel
memory; no result register is written (42_interpolation R141, R143, R144, R149). -/
def Obligations.InterpCompletes : Prop :=
  ∀ (wc hc : SizeCode) (xp yp : Phase) (sz : Size) (s : State), CleanLaunch (.interp wc hc xp yp) sz s →
    ∃ t, exec (.interp wc hc xp yp) s = .next t ∧
      t.regs = { s.regs with busy := false, done := true } ∧
      (∀ r < sz.h, ∀ c < sz.w,
        pix t.mem s.latch.viewD r c = sampleAt xp yp (pix s.mem s.latch.viewA) r c) ∧
      (∀ a, (∀ r < sz.h, ∀ c < sz.w, a ≠ pixAddr s.latch.viewD r c) →
        Memory.byteAt t.mem a = Memory.byteAt s.mem a) ∧
      t = { s with regs := t.regs, hidden := t.hidden, mem := t.mem }

/-- INTERP_AVG at a clean launch writes the interpolated block averaged with S to the window of D (42_interpolation R147,
R150). -/
def Obligations.InterpAvgCompletes : Prop :=
  ∀ (wc hc : SizeCode) (xp yp : Phase) (sz : Size) (s : State), CleanLaunch (.interpAvg wc hc xp yp) sz s →
    ∃ t, exec (.interpAvg wc hc xp yp) s = .next t ∧
      t.regs = { s.regs with busy := false, done := true } ∧
      (∀ r < sz.h, ∀ c < sz.w, pix t.mem s.latch.viewD r c =
        averagedAt xp yp (pix s.mem s.latch.viewA) (pix s.mem s.latch.viewS) r c) ∧
      (∀ a, (∀ r < sz.h, ∀ c < sz.w, a ≠ pixAddr s.latch.viewD r c) →
        Memory.byteAt t.mem a = Memory.byteAt s.mem a) ∧
      t = { s with regs := t.regs, hidden := t.hidden, mem := t.mem }

/-- "So phase (0, 0) is the identity, P[r][c] = pix(A, r, c)" (42_interpolation R145): COPY copies A to D. -/
def Obligations.PhaseZeroCopiesBlock : Prop :=
  ∀ (wc hc : SizeCode) (sz : Size) (s : State), CleanLaunch (Instr.copy wc hc) sz s →
    ∃ t, exec (Instr.copy wc hc) s = .next t ∧
      ∀ r < sz.h, ∀ c < sz.w, pix t.mem s.latch.viewD r c = pix s.mem s.latch.viewA r c

/-- At phase (0, 0) INTERP_AVG is the source's avg_predict (42_interpolation R147, R150; 30_encoding R103). -/
def Obligations.PhaseZeroAverages : Prop :=
  ∀ (wc hc : SizeCode) (sz : Size) (s : State), CleanLaunch (Instr.avg wc hc) sz s →
    ∃ t, exec (Instr.avg wc hc) s = .next t ∧
      ∀ r < sz.h, ∀ c < sz.w, pix t.mem s.latch.viewD r c =
        (pix s.mem s.latch.viewA r c + pix s.mem s.latch.viewS r c + 1) / 2

/-- The intermediate buffer of an interpolating command: the horizontal pass writes (H+1) × W elements, each its rounded
sample, at most 255; the vertical pass over it gives the interpolated samples; and after the command neither it nor the
synthesized block exists (10_state R51, R52; 42_interpolation R141 to R143, R148). -/
def Obligations.BufferHoldsHorizontalPass : Prop :=
  ∀ (i : Instr) (xp yp : Phase) (wc hc : SizeCode) (sz : Size) (s : State), CleanLaunch i sz s →
    (i = .interp wc hc xp yp ∨ i = .interpAvg wc hc xp yp ∨ i = .subpixVar wc hc xp yp ∨
      i = .subpixAvgVar wc hc xp yp) →
    (setT sz xp s).hidden.t.length = sz.h + 1 ∧ (∀ row ∈ (setT sz xp s).hidden.t, row.length = sz.w) ∧
    (∀ r < sz.h + 1, ∀ c < sz.w, ∃ e : BitVec 16, ((setT sz xp s).hidden.t[r]?.bind (·[c]?)) = some e ∧
      e.toNat = tapSample xp (pix s.mem s.latch.viewA r c) (pix s.mem s.latch.viewA r (c + 1)) ∧ e.toNat ≤ 255) ∧
    (∀ r < sz.h, ∀ c < sz.w,
      verticalPass yp (setT sz xp s) r c = sampleAt xp yp (pix s.mem s.latch.viewA) r c) ∧
    ∃ t, exec i s = .next t ∧ t.hidden.t = [] ∧ t.hidden.x = []

/-- Every sample INTERP stores lies between the least and the greatest of its four source samples (42_interpolation R142,
R149). -/
def Obligations.InterpStaysBetweenSamples : Prop :=
  ∀ (wc hc : SizeCode) (xp yp : Phase) (sz : Size) (s : State), CleanLaunch (.interp wc hc xp yp) sz s →
    ∃ t, exec (.interp wc hc xp yp) s = .next t ∧
      ∀ r < sz.h, ∀ c < sz.w, ∀ lo hi : Nat,
        (∀ p ∈ [pix s.mem s.latch.viewA r c, pix s.mem s.latch.viewA r (c + 1),
                pix s.mem s.latch.viewA (r + 1) c, pix s.mem s.latch.viewA (r + 1) (c + 1)], lo ≤ p ∧ p ≤ hi) →
        lo ≤ pix t.mem s.latch.viewD r c ∧ pix t.mem s.latch.viewD r c ≤ hi

/-- What INTERP and INTERP_AVG leave unchanged, however they end: every result register, CTRL, CMD and the views, the latch,
and every byte outside the window of D (10_state R45, 20_memory R66, 42_interpolation R149, R150). -/
def Obligations.InterpolationCommandsFrame : Prop :=
  ∀ (i : Instr) (s t : State), exec i s = .next t →
    ((∃ wc hc xp yp, i = .interp wc hc xp yp) ∨ (∃ wc hc xp yp, i = .interpAvg wc hc xp yp)) →
    (∀ a, (∀ sz, sizeDecode i.wcode i.hcode = some sz →
        ∀ r < sz.h, ∀ c < sz.w, a ≠ pixAddr s.latch.viewD r c) →
      Memory.byteAt t.mem a = Memory.byteAt s.mem a) ∧
    t.regs.resSse = s.regs.resSse ∧ t.regs.resVar = s.regs.resVar ∧ t.regs.resSum = s.regs.resSum ∧
    t.latch = s.latch ∧ t.regs.irqEn = s.regs.irqEn ∧ t.regs.cmd = s.regs.cmd ∧ t.regs.viewA = s.regs.viewA ∧
    t.regs.viewB = s.regs.viewB ∧ t.regs.viewS = s.regs.viewS ∧ t.regs.viewD = s.regs.viewD ∧
    t.rst = s.rst ∧ t.platform = s.platform ∧ t.inputs = s.inputs ∧ t.responses = s.responses

/-! ## Every command -/

/-- Results depend on the command word, the views and the bytes of the read windows alone, which is the spec's own inference
"No register value left by one command changes the results of a later command" (10_state R46): two states with the same
latch and platform and equal bytes in the windows the command reads, whatever their registers, hidden state, other bytes
and everything else, give the same destination bytes and the same result registers where the command writes them. -/
def Obligations.ResultsDependOnInputsAlone : Prop :=
  ∀ (i : Instr) (sz : Size) (s u : State), CleanLaunch i sz s → u.latch = s.latch → u.platform = s.platform →
    (∀ v ∈ usedViews i s.latch, v.role ≠ .dest →
      ∀ a ∈ v.addrs sz, Memory.byteAt u.mem a = Memory.byteAt s.mem a) →
    ∃ t v, exec i s = .next t ∧ exec i u = .next v ∧
      (∀ a ∈ destAddrs i s.latch sz, Memory.byteAt v.mem a = Memory.byteAt t.mem a) ∧
      (((∃ wc hc xp yp, i = .interp wc hc xp yp) ∨ (∃ wc hc xp yp, i = .interpAvg wc hc xp yp)) ∨
        (v.regs.resSse = t.regs.resSse ∧ v.regs.resSum = t.regs.resSum ∧
          ((∃ wc hc, i = .sse wc hc) ∨ v.regs.resVar = t.regs.resVar)))

/-- "Views the command does not use … are neither read nor checked: their registers may hold any value" (20_memory R68;
the views each command uses are 30_encoding R97): whatever they hold, the outcome is the same. -/
def Obligations.UnusedViewsDoNotMatter : Prop :=
  ∀ (i : Instr) (s : State) (l : Latch),
    (match i with
      | .sse _ _ => l.viewA = s.latch.viewA ∧ l.viewB = s.latch.viewB
      | .var _ _ => l.viewA = s.latch.viewA ∧ l.viewB = s.latch.viewB
      | .interp _ _ _ _ => l.viewA = s.latch.viewA ∧ l.viewD = s.latch.viewD
      | .interpAvg _ _ _ _ => l.viewA = s.latch.viewA ∧ l.viewS = s.latch.viewS ∧ l.viewD = s.latch.viewD
      | .subpixVar _ _ _ _ => l.viewA = s.latch.viewA ∧ l.viewB = s.latch.viewB
      | .subpixAvgVar _ _ _ _ => l.viewA = s.latch.viewA ∧ l.viewS = s.latch.viewS ∧ l.viewB = s.latch.viewB) →
    (∀ t, exec i s = .next t → exec i { s with latch := l } = .next { t with latch := l }) ∧
    (∀ f, exec i s = .fault f → exec i { s with latch := l } = .fault f) ∧
    (∀ f, exec i s = .refused f → exec i { s with latch := l } = .refused f)

/-- A command at a clean launch ends in one engine step, with BUSY = 0, DONE = 1 and no error recorded (60_exceptions R205,
70_reset_and_hazards R255, R256). -/
def Obligations.CleanLaunchCompletes : Prop :=
  ∀ (i : Instr) (sz : Size) (s : State), s.Inv → s.regs.busy = true → s.inputs = [] →
    decodeWord s.latch.cmd = .ok i → CleanLaunch i sz s →
    ∃ t, step s = .next t ∧ t.regs.busy = false ∧ t.regs.done = true ∧ t.regs.err = false ∧
      t.regs.errCode = 0 ∧ t.regs.errAddr = 0 ∧ t.irq = s.regs.irqEn

/-- However a command ends, it ends with BUSY = 0 and DONE = 1, and `irq` is then IRQ_EN; the one exception is a platform that
never answers: it hangs on an unbacked address, and the command accesses one (10_state R31; 60_exceptions R204 to R207;
log entry 7). -/
def Obligations.EveryEndSetsDone : Prop :=
  ∀ (i : Instr) (s t : State), exec i s = .next t →
    (t.regs.busy = false ∧ t.regs.done = true ∧ t.irq = s.regs.irqEn) ∨
      (t = s ∧ s.platform.busErrResponse = .hang ∧
        ∃ sz, LegalConfig i s.latch sz ∧ ∃ a ∈ accessAddrs i s.latch sz, s.platform.kindOf a = some .unbacked)

/-- A command of a size outside the catalogue, in the characterisation of 30_encoding R98, ends with BAD_SIZE and no other
effect (30_encoding R95, R99; 60_exceptions R203, R206). -/
def Obligations.BadSizeEndsCommand : Prop :=
  ∀ (i : Instr) (s : State),
    (4 < i.wcode.toNat ∨ 4 < i.hcode.toNat ∨ i.wcode.toNat + 1 < i.hcode.toNat ∨ i.hcode.toNat + 1 < i.wcode.toNat) →
    exec i s = .next { s with regs := { s.regs with
      errCode := 3, err := true, errAddr := 0, busy := false, done := true } }

/-- "For each view the command uses, if V.STRIDE < W the command ends with error BAD_STRIDE before any pixel access",
whatever the view's role; and a command none of whose used views has such a stride, be it equal to W under the window of
W+1 columns, does not end with BAD_STRIDE (20_memory R70; 60_exceptions R203, R206). -/
def Obligations.BadStrideEndsCommand : Prop :=
  ∀ (i : Instr) (s : State) (sz : Size), sizeDecode i.wcode i.hcode = some sz →
    (∀ u ∈ usedViews i s.latch, u.view.stride.toNat < sz.w →
      exec i s = .next { s with regs := { s.regs with
        errCode := 4, err := true, errAddr := 0, busy := false, done := true } }) ∧
    ((∀ u ∈ usedViews i s.latch, sz.w ≤ u.view.stride.toNat) →
      ∀ t, exec i s = .next t → t.regs.errCode = 4 → s.regs.errCode = 4)

/-- A used view whose window, of its role's rows and columns, passes 0xFFFF_FFFF ends the command with ADDR_WRAP, where no
stride is bad (20_memory R66, R69; 60_exceptions R202, R203, R206). -/
def Obligations.AddrWrapEndsCommand : Prop :=
  ∀ (i : Instr) (s : State) (sz : Size) (u : UsedView) (a : Nat), sizeDecode i.wcode i.hcode = some sz →
    (∀ v ∈ usedViews i s.latch, sz.w ≤ v.view.stride.toNat) →
    u ∈ usedViews i s.latch → a ∈ u.addrs sz → 2 ^ 32 ≤ a →
    exec i s = .next { s with regs := { s.regs with
      errCode := 5, err := true, errAddr := 0, busy := false, done := true } }

/-- Where the platform answers accesses of a legal command with an error, the command ends with BUS_ERR and ERR_ADDR one of
their addresses; the result registers keep their values and no byte outside the destination window changes
(60_exceptions R204, R206). The spec has a model fault where the launch memory refuses the address; here the launch
itself says that nothing is there: the model's choice, log entry 5. -/
def Obligations.BusErrorEndsCommand : Prop :=
  ∀ (i : Instr) (s : State) (sz : Size), LegalConfig i s.latch sz → NoOverlap i s.latch sz →
    (∀ a ∈ accessAddrs i s.latch sz,
      s.platform.kindOf a = some .ram ∨ s.platform.kindOf a = some .unbacked) →
    (∃ a ∈ accessAddrs i s.latch sz, s.platform.kindOf a = some .unbacked) →
    s.platform.busErrResponse = .error →
    ∃ t, exec i s = .next t ∧
      t.regs = { s.regs with errCode := 6, err := true, errAddr := t.regs.errAddr, busy := false, done := true } ∧
      t.regs.errAddr.toNat ∈ accessAddrs i s.latch sz ∧
      s.platform.kindOf t.regs.errAddr.toNat = some .unbacked ∧
      (∀ a, a ∉ destAddrs i s.latch sz → Memory.byteAt t.mem a = Memory.byteAt s.mem a) ∧
      t.latch = s.latch ∧ t.platform = s.platform

/-- "Where BUS_ERR_RESPONSE = hang, the command never completes and BUSY stays 1 until a reset" (60_exceptions R204): the
engine's turn changes nothing (log entry 7). -/
def Obligations.UnansweredCommandHangs : Prop :=
  ∀ (i : Instr) (s : State) (sz : Size), LegalConfig i s.latch sz → NoOverlap i s.latch sz →
    (∀ a ∈ accessAddrs i s.latch sz,
      s.platform.kindOf a = some .ram ∨ s.platform.kindOf a = some .unbacked) →
    (∃ a ∈ accessAddrs i s.latch sz, s.platform.kindOf a = some .unbacked) →
    s.platform.busErrResponse = .hang → exec i s = .next s

/-- "A model faults such a command (fault OVERLAP)": a destination window that shares a byte with a window the same command
reads (20_memory R74, 60_exceptions R219). -/
def Obligations.OverlapFaults : Prop :=
  ∀ (i : Instr) (s : State) (sz : Size) (d u : UsedView) (a : Nat), LegalConfig i s.latch sz →
    (∀ b ∈ accessAddrs i s.latch sz, s.platform.kindOf b = some .ram) →
    d ∈ usedViews i s.latch → d.role = .dest → u ∈ usedViews i s.latch → u.role ≠ .dest →
    a ∈ d.addrs sz → a ∈ u.addrs sz → exec i s = .fault .overlap

/-- A window with an address the launch memory does not admit faults, and one over memory with side effects is refused
(20_memory R71, R72; 60_exceptions R219; which comes first: log entry 20). -/
def Obligations.UnfitWindowsStop : Prop :=
  ∀ (i : Instr) (s : State) (sz : Size), LegalConfig i s.latch sz →
    ((∃ a ∈ accessAddrs i s.latch sz, s.platform.kindOf a = some .device) → exec i s = .refused .nonIdempotent) ∧
    ((∀ a ∈ accessAddrs i s.latch sz, s.platform.kindOf a ≠ some .device) →
      (∃ a ∈ accessAddrs i s.latch sz, s.platform.kindOf a = none) → exec i s = .fault .unadmitted)

/-- An error completion changes STATUS and ERR_ADDR only: "RES_SSE, RES_VAR, RES_SUM unchanged" (60_exceptions R206, R210). -/
def Obligations.ErrorCompletionIsPrecise : Prop :=
  ∀ (i : Instr) (s t : State), s.regs.err = false → exec i s = .next t → t.regs.err = true →
    t.regs = { s.regs with
      errCode := t.regs.errCode, err := true, errAddr := t.regs.errAddr, busy := false, done := true } ∧
    3 ≤ t.regs.errCode.toNat ∧ t.regs.errCode.toNat ≤ 6 ∧ (t.regs.errCode ≠ 6 → t.mem = s.mem ∧ t.regs.errAddr = 0)

/-! ## The register port -/

/-- A 32-bit read of each register returns its value and changes nothing but what the host has got back (10_state R22, R24,
R25, R28, R29). -/
def Obligations.RegisterReadValues : Prop :=
  ∀ (s : State) (rest : List Input), s.rst = false →
    ∀ e ∈ ([(0x00, 0x53534531), (0x04, if s.regs.irqEn then 2 else 0),
            (0x08, BitVec.ofNat 32 (s.regs.busy.toNat + 2 * s.regs.done.toNat + 4 * s.regs.err.toNat
                                      + 16 * s.regs.errCode.toNat)),
            (0x0C, s.regs.cmd), (0x10, s.regs.viewA.addr), (0x14, s.regs.viewA.stride), (0x18, s.regs.viewB.addr),
            (0x1C, s.regs.viewB.stride), (0x20, s.regs.viewS.addr), (0x24, s.regs.viewS.stride),
            (0x28, s.regs.viewD.addr), (0x2C, s.regs.viewD.stride), (0x30, s.regs.resSse), (0x34, s.regs.resVar),
            (0x38, s.regs.resSum), (0x3C, s.regs.errAddr)] : List (Nat × Word)),
      s.inputs = rd s.platform e.1 :: rest →
      step s = .next { s with inputs := rest, responses := .word e.2 :: s.responses }

/-- A register access of another width, at a misaligned offset or outside the window is refused, read or write (10_state
R23, 60_exceptions R219). -/
def Obligations.BadRegisterAccessRefused : Prop :=
  ∀ (s : State) (addr v : Word) (width : Nat) (rest : List Input), s.rst = false →
    (width ≠ 32 ∨ (addr - s.platform.regBase).toNat % 4 ≠ 0 ∨ 0x40 ≤ (addr - s.platform.regBase).toNat) →
    (s.inputs = .host (.regRead addr width) :: rest ∨ s.inputs = .host (.regWrite addr width v) :: rest) →
    step s = .refused .registerAccess

/-- The whole effect of a CTRL write without SOFT_RESET: an accepted START clears DONE, ERR, ERR_CODE and ERR_ADDR, latches
the configuration and sets BUSY, whatever DONE and ERR were; a START while BUSY is ignored; IRQ_EN is always honoured
(10_state R27, R49; 70_reset_and_hazards R246). -/
def Obligations.CtrlWriteStarts : Prop :=
  ∀ (s : State) (v : Word) (rest : List Input), s.rst = false → s.inputs = wr s.platform 0x04 v :: rest →
    v.getLsbD 2 = false →
    (v.getLsbD 0 = true → s.regs.busy = false →
      step s = .next { s with
        inputs := rest
        latch := { cmd := s.regs.cmd, viewA := s.regs.viewA, viewB := s.regs.viewB, viewS := s.regs.viewS,
                   viewD := s.regs.viewD }
        regs := { s.regs with irqEn := v.getLsbD 1, busy := true, done := false, err := false, errCode := 0,
                              errAddr := 0 } }) ∧
    ((v.getLsbD 0 = false ∨ s.regs.busy = true) →
      step s = .next { s with inputs := rest, regs := { s.regs with irqEn := v.getLsbD 1 } })

/-- "Writing IRQ_EN = 1 while DONE = 1 from an earlier command raises `irq` at once"; in the same write as START, which
clears DONE, it does not; nor where DONE has been cleared first (the spec's own inference, 70_reset_and_hazards R253, from
60_exceptions R207 and 10_state R27). -/
def Obligations.StaleDoneRaisesIrq : Prop :=
  ∀ (s : State) (v : Word) (rest : List Input), s.rst = false → s.inputs = wr s.platform 0x04 v :: rest →
    v.getLsbD 2 = false → v.getLsbD 1 = true → s.regs.busy = false →
    ∃ t, step s = .next t ∧ t.regs.irqEn = true ∧
      (s.regs.done = true → v.getLsbD 0 = false → t.irq = true) ∧
      (v.getLsbD 0 = true → t.irq = false) ∧ (s.regs.done = false → t.irq = false)

/-- A write of `v` to STATUS: bit 1 clears DONE; bit 2 clears ERR, ERR_CODE and ERR_ADDR; all other bits are ignored; while
BUSY it has no effect (10_state R33). -/
def Obligations.StatusWriteAcknowledges : Prop :=
  ∀ (s : State) (v : Word) (rest : List Input), s.rst = false → s.inputs = wr s.platform 0x08 v :: rest →
    step s = .next { s with
      inputs := rest
      regs := { s.regs with
        done := if v.getLsbD 1 then false else s.regs.done
        err := if v.getLsbD 2 then false else s.regs.err
        errCode := if v.getLsbD 2 then 0 else s.regs.errCode
        errAddr := if v.getLsbD 2 then 0 else s.regs.errAddr } } ∧
    (s.Inv → s.regs.busy = true → step s = .next { s with inputs := rest })

/-- While IDLE a write to CMD or to a view register changes that one register, to all 32 bits as written, and nothing else,
and a read gets them back (10_state R34 to R38). -/
def Obligations.ConfigReadsBackAsWritten : Prop :=
  ∀ (s : State) (v : Word) (rest : List Input), s.rst = false → s.regs.busy = false →
    ∀ e ∈ ([(0x0C, { s.regs with cmd := v }),
            (0x10, { s.regs with viewA := { s.regs.viewA with addr := v } }),
            (0x14, { s.regs with viewA := { s.regs.viewA with stride := v } }),
            (0x18, { s.regs with viewB := { s.regs.viewB with addr := v } }),
            (0x1C, { s.regs with viewB := { s.regs.viewB with stride := v } }),
            (0x20, { s.regs with viewS := { s.regs.viewS with addr := v } }),
            (0x24, { s.regs with viewS := { s.regs.viewS with stride := v } }),
            (0x28, { s.regs with viewD := { s.regs.viewD with addr := v } }),
            (0x2C, { s.regs with viewD := { s.regs.viewD with stride := v } })] : List (Nat × Regs)),
      s.inputs = wr s.platform e.1 v :: rest →
      step s = .next { s with inputs := rest, regs := e.2 } ∧
      (∀ more, rest = rd s.platform e.1 :: more →
        step { s with inputs := rest, regs := e.2 } =
          .next { s with inputs := more, regs := e.2, responses := .word v :: s.responses })

/-- "While STATUS.BUSY = 1, host writes to CMD, A_ADDR, A_STRIDE, B_ADDR, B_STRIDE, S_ADDR, S_STRIDE, D_ADDR and D_STRIDE are
ignored (the register keeps its value) and record nothing" (10_state R39, first sentence; 70_reset_and_hazards R247). -/
def Obligations.ConfigWritesIgnoredWhileBusy : Prop :=
  ∀ (s : State) (v : Word) (rest : List Input) (off : Nat), s.rst = false → s.regs.busy = true →
    off ∈ [0x0C, 0x10, 0x14, 0x18, 0x1C, 0x20, 0x24, 0x28, 0x2C] →
    s.inputs = wr s.platform off v :: rest → step s = .next { s with inputs := rest }

/-- "Writes to a read-only register (ID, RES_SSE, RES_VAR, RES_SUM, ERR_ADDR) are ignored and have no side effect" (10_state
R24). -/
def Obligations.ReadOnlyWritesIgnored : Prop :=
  ∀ (s : State) (v : Word) (rest : List Input) (off : Nat), s.rst = false →
    off ∈ [0x00, 0x30, 0x34, 0x38, 0x3C] →
    s.inputs = wr s.platform off v :: rest → step s = .next { s with inputs := rest }

/-! ## Reset -/

/-- The values the registers hold after reset: ID its constant, every other register 0 (10_state R56; 95_test_vectors T1). -/
def Obligations.RegistersReadAfterReset : Prop :=
  ∀ (s : State) (rest : List Input) (off : Nat), s.rst = false → s.regs = State.reset.regs →
    off % 4 = 0 → off < 0x40 → s.inputs = rd s.platform off :: rest →
    ∃ t, step s = .next t ∧
      t.responses = .word (if off = 0 then 0x53534531 else 0) :: s.responses ∧ t.regs = s.regs ∧ t.irq = false

/-- A soft reset, from any state: every register takes its reset value, the other bits of the write are ignored; pixel
memory is unchanged but for the destination window of the command it aborts (70_reset_and_hazards R242, R243; 10_state
R27, R56). Three points are the model's. A BUSY command that will fail its checks has no destination in flight, so that
its D is unchanged too, where R243 leaves D unspecified: deduced from 60_exceptions R203, log entry 9. A command in
flight over memory with side effects is left out (20_memory R71; log entry 12). The abort of a command whose windows
overlap or hold an address not admitted is no fault: log entry 30. -/
def Obligations.SoftResetClearsRegisters : Prop :=
  ∀ (s : State) (v : Word) (rest : List Input), s.rst = false → s.inputs = wr s.platform 0x04 v :: rest →
    v.getLsbD 2 = true →
    (∀ i sz, inFlight s = some (i, sz) → ∀ a ∈ accessAddrs i s.latch sz, s.platform.kindOf a ≠ some .device) →
    ∃ t, step s = .next t ∧ t.regs = State.reset.regs ∧ t.irq = false ∧ t.inputs = rest ∧
      t.platform = s.platform ∧ t.responses = s.responses ∧
      (∀ a, (∀ i sz, inFlight s = some (i, sz) → a ∉ destAddrs i s.latch sz) →
        Memory.byteAt t.mem a = Memory.byteAt s.mem a) ∧
      (s.regs.busy = false → t.mem = s.mem)

/-- A hardware reset: after `rst` has been asserted and released every register holds its reset value
(70_reset_and_hazards R241; 10_state R56); in between the block answers no register access, so that a read, a write and
the poll of a waiting host are refused (log entry 14). A command in flight over memory with side effects is left out
(20_memory R71; log entry 12); that the abort of one whose windows overlap or hold an address not admitted is no fault
is the model's choice, log entry 30. -/
def Obligations.HardwareResetClearsRegisters : Prop :=
  ∀ (s : State) (rest : List Input),
    (∀ i sz, inFlight s = some (i, sz) → ∀ a ∈ accessAddrs i s.latch sz, s.platform.kindOf a ≠ some .device) →
    (s.inputs = .assertRst :: .releaseRst :: rest →
      ∃ t u, step s = .next t ∧ step t = .next u ∧ u.regs = State.reset.regs ∧ u.irq = false ∧ u.rst = false ∧
        u.inputs = rest) ∧
    (∀ addr width v m, (m = .host (.regRead addr width) ∨ m = .host (.regWrite addr width v) ∨ m = .wait) →
      s.inputs = .assertRst :: m :: rest →
      ∃ t, step s = .next t ∧ step t = .refused .accessDuringReset)

/-! ## The host's own accesses -/

/-- A host store of a byte: into a window of the command in flight it faults, whatever the platform has there (20_memory R85,
60_exceptions R219); elsewhere in RAM that byte holds the value and every other byte is as before. The model's choices: a
BUSY command that will fail its checks has no windows in flight (log entry 9), and elsewhere outside RAM a store is refused
(log entry 19). -/
def Obligations.HostStoreRacesOnlyInWindows : Prop :=
  ∀ (s : State) (addr : Word) (v : Byte) (rest : List Input), s.inputs = .host (.memStore addr v) :: rest →
    (∀ i sz, inFlight s = some (i, sz) → addr.toNat ∈ accessAddrs i s.latch sz → step s = .fault .race) ∧
    ((∀ i sz, inFlight s = some (i, sz) → addr.toNat ∉ accessAddrs i s.latch sz) →
      (s.platform.kindOf addr.toNat = some .ram →
        ∃ t, step s = .next t ∧ Memory.byteAt t.mem addr.toNat = v ∧
          (∀ a, a ≠ addr.toNat → Memory.byteAt t.mem a = Memory.byteAt s.mem a) ∧
          t = { s with inputs := rest, mem := t.mem }) ∧
      (s.platform.kindOf addr.toNat ≠ some .ram → step s = .refused .hostAccessOutsideRam))

/-- A host load of a byte: from the destination window of the command in flight it gets a free byte, whatever the platform has
there, from elsewhere in RAM the byte there; no byte changes (20_memory R85, 60_exceptions R219). The model's choices: each
load draws a free byte of its own (log entry 10), a BUSY command that will fail its checks has no destination in flight
(log entry 9), and elsewhere outside RAM a load is refused (log entry 19). -/
def Obligations.HostLoadDrawsOnlyInDestination : Prop :=
  ∀ (s : State) (addr : Word) (rest : List Input), s.inputs = .host (.memLoad addr) :: rest →
    (∀ i sz, inFlight s = some (i, sz) → addr.toNat ∈ destAddrs i s.latch sz →
      step s = .next { s with inputs := rest, draws := s.draws + 1,
                              responses := .byte (Config.freeByte s.draws) :: s.responses }) ∧
    ((∀ i sz, inFlight s = some (i, sz) → addr.toNat ∉ destAddrs i s.latch sz) →
      (s.platform.kindOf addr.toNat = some .ram →
        step s = .next { s with inputs := rest,
                                responses := .byte (Memory.byteAt s.mem addr.toNat) :: s.responses }) ∧
      (s.platform.kindOf addr.toNat ≠ some .ram → step s = .refused .hostAccessOutsideRam))
end

