-- ==== Sys2Proof/Laws/State.lean ====
section
/-!
SUPPORT. What each single update of State leaves in each field, and what the completions, the accepted START and the
reset leave; so that no later proof unfolds a record update.
-/

namespace Sys2Proof.Machine

variable (s : State)

@[simp] theorem State.setRegs_regs (r : Regs) : (s.setRegs r).regs = r := rfl
@[simp] theorem State.setRegs_latch (r : Regs) : (s.setRegs r).latch = s.latch := rfl
@[simp] theorem State.setRegs_hidden (r : Regs) : (s.setRegs r).hidden = s.hidden := rfl
@[simp] theorem State.setRegs_rst (r : Regs) : (s.setRegs r).rst = s.rst := rfl
@[simp] theorem State.setRegs_mem (r : Regs) : (s.setRegs r).mem = s.mem := rfl
@[simp] theorem State.setRegs_platform (r : Regs) : (s.setRegs r).platform = s.platform := rfl
@[simp] theorem State.setRegs_inputs (r : Regs) : (s.setRegs r).inputs = s.inputs := rfl
@[simp] theorem State.setRegs_responses (r : Regs) : (s.setRegs r).responses = s.responses := rfl
@[simp] theorem State.setRegs_draws (r : Regs) : (s.setRegs r).draws = s.draws := rfl

@[simp] theorem State.setLatch_regs (l : Latch) : (s.setLatch l).regs = s.regs := rfl
@[simp] theorem State.setLatch_latch (l : Latch) : (s.setLatch l).latch = l := rfl
@[simp] theorem State.setLatch_hidden (l : Latch) : (s.setLatch l).hidden = s.hidden := rfl
@[simp] theorem State.setLatch_rst (l : Latch) : (s.setLatch l).rst = s.rst := rfl
@[simp] theorem State.setLatch_mem (l : Latch) : (s.setLatch l).mem = s.mem := rfl
@[simp] theorem State.setLatch_platform (l : Latch) : (s.setLatch l).platform = s.platform := rfl
@[simp] theorem State.setLatch_inputs (l : Latch) : (s.setLatch l).inputs = s.inputs := rfl
@[simp] theorem State.setLatch_responses (l : Latch) : (s.setLatch l).responses = s.responses := rfl
@[simp] theorem State.setLatch_draws (l : Latch) : (s.setLatch l).draws = s.draws := rfl

@[simp] theorem State.setHidden_regs (h : Hidden) : (s.setHidden h).regs = s.regs := rfl
@[simp] theorem State.setHidden_latch (h : Hidden) : (s.setHidden h).latch = s.latch := rfl
@[simp] theorem State.setHidden_hidden (h : Hidden) : (s.setHidden h).hidden = h := rfl
@[simp] theorem State.setHidden_rst (h : Hidden) : (s.setHidden h).rst = s.rst := rfl
@[simp] theorem State.setHidden_mem (h : Hidden) : (s.setHidden h).mem = s.mem := rfl
@[simp] theorem State.setHidden_platform (h : Hidden) : (s.setHidden h).platform = s.platform := rfl
@[simp] theorem State.setHidden_inputs (h : Hidden) : (s.setHidden h).inputs = s.inputs := rfl
@[simp] theorem State.setHidden_responses (h : Hidden) : (s.setHidden h).responses = s.responses := rfl
@[simp] theorem State.setHidden_draws (h : Hidden) : (s.setHidden h).draws = s.draws := rfl

@[simp] theorem State.setRst_regs (b : Bool) : (s.setRst b).regs = s.regs := rfl
@[simp] theorem State.setRst_latch (b : Bool) : (s.setRst b).latch = s.latch := rfl
@[simp] theorem State.setRst_hidden (b : Bool) : (s.setRst b).hidden = s.hidden := rfl
@[simp] theorem State.setRst_rst (b : Bool) : (s.setRst b).rst = b := rfl
@[simp] theorem State.setRst_mem (b : Bool) : (s.setRst b).mem = s.mem := rfl
@[simp] theorem State.setRst_platform (b : Bool) : (s.setRst b).platform = s.platform := rfl
@[simp] theorem State.setRst_inputs (b : Bool) : (s.setRst b).inputs = s.inputs := rfl
@[simp] theorem State.setRst_responses (b : Bool) : (s.setRst b).responses = s.responses := rfl
@[simp] theorem State.setRst_draws (b : Bool) : (s.setRst b).draws = s.draws := rfl

@[simp] theorem State.setMem_regs (m : Memory) : (s.setMem m).regs = s.regs := rfl
@[simp] theorem State.setMem_latch (m : Memory) : (s.setMem m).latch = s.latch := rfl
@[simp] theorem State.setMem_hidden (m : Memory) : (s.setMem m).hidden = s.hidden := rfl
@[simp] theorem State.setMem_rst (m : Memory) : (s.setMem m).rst = s.rst := rfl
@[simp] theorem State.setMem_mem (m : Memory) : (s.setMem m).mem = m := rfl
@[simp] theorem State.setMem_platform (m : Memory) : (s.setMem m).platform = s.platform := rfl
@[simp] theorem State.setMem_inputs (m : Memory) : (s.setMem m).inputs = s.inputs := rfl
@[simp] theorem State.setMem_responses (m : Memory) : (s.setMem m).responses = s.responses := rfl
@[simp] theorem State.setMem_draws (m : Memory) : (s.setMem m).draws = s.draws := rfl

@[simp] theorem State.setInputs_regs (is : List Input) : (s.setInputs is).regs = s.regs := rfl
@[simp] theorem State.setInputs_latch (is : List Input) : (s.setInputs is).latch = s.latch := rfl
@[simp] theorem State.setInputs_hidden (is : List Input) : (s.setInputs is).hidden = s.hidden := rfl
@[simp] theorem State.setInputs_rst (is : List Input) : (s.setInputs is).rst = s.rst := rfl
@[simp] theorem State.setInputs_mem (is : List Input) : (s.setInputs is).mem = s.mem := rfl
@[simp] theorem State.setInputs_platform (is : List Input) : (s.setInputs is).platform = s.platform := rfl
@[simp] theorem State.setInputs_inputs (is : List Input) : (s.setInputs is).inputs = is := rfl
@[simp] theorem State.setInputs_responses (is : List Input) : (s.setInputs is).responses = s.responses := rfl
@[simp] theorem State.setInputs_draws (is : List Input) : (s.setInputs is).draws = s.draws := rfl

@[simp] theorem State.setDraws_regs (n : Nat) : (s.setDraws n).regs = s.regs := rfl
@[simp] theorem State.setDraws_latch (n : Nat) : (s.setDraws n).latch = s.latch := rfl
@[simp] theorem State.setDraws_hidden (n : Nat) : (s.setDraws n).hidden = s.hidden := rfl
@[simp] theorem State.setDraws_rst (n : Nat) : (s.setDraws n).rst = s.rst := rfl
@[simp] theorem State.setDraws_mem (n : Nat) : (s.setDraws n).mem = s.mem := rfl
@[simp] theorem State.setDraws_platform (n : Nat) : (s.setDraws n).platform = s.platform := rfl
@[simp] theorem State.setDraws_inputs (n : Nat) : (s.setDraws n).inputs = s.inputs := rfl
@[simp] theorem State.setDraws_responses (n : Nat) : (s.setDraws n).responses = s.responses := rfl
@[simp] theorem State.setDraws_draws (n : Nat) : (s.setDraws n).draws = n := rfl

@[simp] theorem State.respond_regs (x : Response) : (s.respond x).regs = s.regs := rfl
@[simp] theorem State.respond_latch (x : Response) : (s.respond x).latch = s.latch := rfl
@[simp] theorem State.respond_hidden (x : Response) : (s.respond x).hidden = s.hidden := rfl
@[simp] theorem State.respond_rst (x : Response) : (s.respond x).rst = s.rst := rfl
@[simp] theorem State.respond_mem (x : Response) : (s.respond x).mem = s.mem := rfl
@[simp] theorem State.respond_platform (x : Response) : (s.respond x).platform = s.platform := rfl
@[simp] theorem State.respond_inputs (x : Response) : (s.respond x).inputs = s.inputs := rfl
@[simp] theorem State.respond_responses (x : Response) : (s.respond x).responses = x :: s.responses := rfl
@[simp] theorem State.respond_draws (x : Response) : (s.respond x).draws = s.draws := rfl

@[simp] theorem completeOk_regs (w : ResultWrites) : (completeOk w s).regs = 
    { s.regs with
      resSse := w.sse.getD s.regs.resSse, resVar := w.var.getD s.regs.resVar, resSum := w.sum.getD s.regs.resSum,
      busy := false, done := true } := rfl
@[simp] theorem completeOk_latch (w : ResultWrites) : (completeOk w s).latch = s.latch := rfl
@[simp] theorem completeOk_hidden (w : ResultWrites) : (completeOk w s).hidden = s.hidden := rfl
@[simp] theorem completeOk_rst (w : ResultWrites) : (completeOk w s).rst = s.rst := rfl
@[simp] theorem completeOk_mem (w : ResultWrites) : (completeOk w s).mem = s.mem := rfl
@[simp] theorem completeOk_platform (w : ResultWrites) : (completeOk w s).platform = s.platform := rfl
@[simp] theorem completeOk_inputs (w : ResultWrites) : (completeOk w s).inputs = s.inputs := rfl
@[simp] theorem completeOk_responses (w : ResultWrites) : (completeOk w s).responses = s.responses := rfl
@[simp] theorem completeOk_draws (w : ResultWrites) : (completeOk w s).draws = s.draws := rfl

@[simp] theorem completeErr_regs (e : CmdError) (a : Word) : (completeErr e a s).regs = 
    { s.regs with errCode := errorCode e, err := true, errAddr := a, busy := false, done := true } := rfl
@[simp] theorem completeErr_latch (e : CmdError) (a : Word) : (completeErr e a s).latch = s.latch := rfl
@[simp] theorem completeErr_hidden (e : CmdError) (a : Word) : (completeErr e a s).hidden = s.hidden := rfl
@[simp] theorem completeErr_rst (e : CmdError) (a : Word) : (completeErr e a s).rst = s.rst := rfl
@[simp] theorem completeErr_mem (e : CmdError) (a : Word) : (completeErr e a s).mem = s.mem := rfl
@[simp] theorem completeErr_platform (e : CmdError) (a : Word) : (completeErr e a s).platform = s.platform := rfl
@[simp] theorem completeErr_inputs (e : CmdError) (a : Word) : (completeErr e a s).inputs = s.inputs := rfl
@[simp] theorem completeErr_responses (e : CmdError) (a : Word) : (completeErr e a s).responses = s.responses := rfl
@[simp] theorem completeErr_draws (e : CmdError) (a : Word) : (completeErr e a s).draws = s.draws := rfl

@[simp] theorem acknowledge_regs (v : Word) : (acknowledge v s).regs = ackStatus v s.regs := rfl
@[simp] theorem acknowledge_latch (v : Word) : (acknowledge v s).latch = s.latch := rfl
@[simp] theorem acknowledge_hidden (v : Word) : (acknowledge v s).hidden = s.hidden := rfl
@[simp] theorem acknowledge_rst (v : Word) : (acknowledge v s).rst = s.rst := rfl
@[simp] theorem acknowledge_mem (v : Word) : (acknowledge v s).mem = s.mem := rfl
@[simp] theorem acknowledge_platform (v : Word) : (acknowledge v s).platform = s.platform := rfl
@[simp] theorem acknowledge_inputs (v : Word) : (acknowledge v s).inputs = s.inputs := rfl
@[simp] theorem acknowledge_responses (v : Word) : (acknowledge v s).responses = s.responses := rfl
@[simp] theorem acknowledge_draws (v : Word) : (acknowledge v s).draws = s.draws := rfl

@[simp] theorem acceptStart_regs  : (acceptStart s).regs = 
    { s.regs with busy := true, done := false, err := false, errCode := 0, errAddr := 0 } := rfl
@[simp] theorem acceptStart_latch  : (acceptStart s).latch = latchOf s.regs := rfl
@[simp] theorem acceptStart_hidden  : (acceptStart s).hidden = s.hidden := rfl
@[simp] theorem acceptStart_rst  : (acceptStart s).rst = s.rst := rfl
@[simp] theorem acceptStart_mem  : (acceptStart s).mem = s.mem := rfl
@[simp] theorem acceptStart_platform  : (acceptStart s).platform = s.platform := rfl
@[simp] theorem acceptStart_inputs  : (acceptStart s).inputs = s.inputs := rfl
@[simp] theorem acceptStart_responses  : (acceptStart s).responses = s.responses := rfl
@[simp] theorem acceptStart_draws  : (acceptStart s).draws = s.draws := rfl

@[simp] theorem resetBlock_regs  : (resetBlock s).regs = Regs.reset := rfl
@[simp] theorem resetBlock_latch  : (resetBlock s).latch = Latch.reset := rfl
@[simp] theorem resetBlock_hidden  : (resetBlock s).hidden = Hidden.reset := rfl
@[simp] theorem resetBlock_rst  : (resetBlock s).rst = s.rst := rfl
@[simp] theorem resetBlock_mem  : (resetBlock s).mem = s.mem := rfl
@[simp] theorem resetBlock_platform  : (resetBlock s).platform = s.platform := rfl
@[simp] theorem resetBlock_inputs  : (resetBlock s).inputs = s.inputs := rfl
@[simp] theorem resetBlock_responses  : (resetBlock s).responses = s.responses := rfl
@[simp] theorem resetBlock_draws  : (resetBlock s).draws = s.draws := rfl

/-- The error completion of a word that is no command changes the register file only. -/
theorem rejectWord_eq (e : WordError) :
    rejectWord e s = completeErr (match e with | .illegalOp => .illegalOp | .rsvdField => .rsvdField) 0 s := by
  cases e <;> rfl

/-- Replacing the register file by itself changes nothing. -/
@[simp] theorem State.setRegs_self : s.setRegs s.regs = s := rfl

end Sys2Proof.Machine
end

