-- ==== Sys2Proof/Laws/Memory.lean ====
section
/-!
SUPPORT. The laws of pixel memory: a read after a write, the canonical form kept by every operation, and what drawing
free bytes can do.
-/

namespace Sys2Proof.Machine

@[simp] theorem Memory.read_nil (a : Nat) : Memory.read [] a = none := rfl

/-- A read of the address written gives the value written. -/
@[simp] theorem Memory.read_write_same (m : Memory) (a : Nat) (v : Byte) :
    Memory.read (Memory.write m a v) a = some v := by
  induction m with
  | nil => simp [Memory.write, Memory.read]
  | cons p rest ih =>
    obtain ⟨k, b⟩ := p
    simp only [Memory.write]
    split
    · simp [Memory.read]
    · split
      · simp [Memory.read]
      · rename_i hk
        simp [Memory.read, hk, ih]

/-- A write leaves every other address as it was. -/
theorem Memory.read_write_other (m : Memory) {a a' : Nat} (v : Byte) (h : a' ≠ a) :
    Memory.read (Memory.write m a v) a' = Memory.read m a' := by
  induction m with
  | nil => simp [Memory.write, Memory.read, h]
  | cons p rest ih =>
    obtain ⟨k, b⟩ := p
    simp only [Memory.write]
    split
    · simp [Memory.read, h]
    · split
      · rename_i hk
        subst hk
        simp [Memory.read, h]
      · simp [Memory.read, ih]

/-- A read after a write, either way. -/
theorem Memory.read_write (m : Memory) (a a' : Nat) (v : Byte) :
    Memory.read (Memory.write m a v) a' = if a' = a then some v else Memory.read m a' := by
  split
  · subst_vars; simp
  · exact Memory.read_write_other m v ‹_›

@[simp] theorem Memory.byteAt_write_same (m : Memory) (a : Nat) (v : Byte) :
    Memory.byteAt (Memory.write m a v) a = v := by
  simp [Memory.byteAt]

theorem Memory.byteAt_write_other (m : Memory) {a a' : Nat} (v : Byte) (h : a' ≠ a) :
    Memory.byteAt (Memory.write m a v) a' = Memory.byteAt m a' := by
  simp [Memory.byteAt, Memory.read_write_other m v h]

/-- Every address a write lists was listed before or is the one written. -/
theorem Memory.mem_write {m : Memory} {a : Nat} {v : Byte} {p : Host.Cell} (h : p ∈ Memory.write m a v) :
    p = (a, v) ∨ p ∈ m := by
  induction m with
  | nil => simpa [Memory.write] using h
  | cons q rest ih =>
    obtain ⟨k, b⟩ := q
    simp only [Memory.write] at h
    split at h
    · simpa using h
    · split at h
      · rcases List.mem_cons.mp h with h | h
        · exact .inl h
        · exact .inr (List.mem_cons_of_mem _ h)
      · rcases List.mem_cons.mp h with h | h
        · exact .inr (h ▸ List.mem_cons_self ..)
        · exact (ih h).imp id (List.mem_cons_of_mem _)

/-- A write keeps the canonical form. -/
theorem Memory.wf_write {m : Memory} (h : Memory.wf m) {a : Nat} (ha : a < 2 ^ 32) (v : Byte) :
    Memory.wf (Memory.write m a v) := by
  refine ⟨?_, fun p hp => ?_⟩
  · obtain ⟨hs, -⟩ := h
    induction m with
    | nil => simp [Memory.write]
    | cons q rest ih =>
      obtain ⟨k, b⟩ := q
      obtain ⟨hk, hrest⟩ := List.pairwise_cons.mp hs
      simp only [Memory.write]
      split
      · refine List.pairwise_cons.mpr ⟨fun p hp => ?_, hs⟩
        rcases List.mem_cons.mp hp with rfl | hp
        · assumption
        · exact Nat.lt_trans ‹_› (hk p hp)
      · split
        · subst_vars
          exact List.pairwise_cons.mpr ⟨hk, hrest⟩
        · refine List.pairwise_cons.mpr ⟨fun p hp => ?_, ih hrest⟩
          rcases Memory.mem_write hp with rfl | hp
          · show k < a
            omega
          · exact hk p hp
  · rcases Memory.mem_write hp with rfl | hp
    · exact ha
    · exact h.2 p hp

theorem Memory.wf_nil : Memory.wf [] := by simp [Memory.wf]

/-! ## Drawing free bytes -/

/-- What one draw changes: pixel memory at that address, and the counter. -/
theorem drawByte_eq (a : Nat) (s : State) :
    drawByte a s = { s with mem := (drawByte a s).mem, draws := s.draws + 1 } := by
  unfold drawByte; split <;> rfl

theorem drawByte_read_other (a a' : Nat) (s : State) (h : a' ≠ a) :
    Memory.read (drawByte a s).mem a' = Memory.read s.mem a' := by
  unfold drawByte; split
  · exact Memory.read_write_other s.mem _ h
  · rfl

theorem drawByte_wf (a : Nat) (s : State) (h : Memory.wf s.mem) (ha : a < 2 ^ 32) :
    Memory.wf (drawByte a s).mem := by
  unfold drawByte; split
  · exact Memory.wf_write h ha _
  · exact h

/-- Drawing bytes changes pixel memory and the counter, nothing else. -/
theorem drawBytes_eq (as : List Nat) (s : State) :
    drawBytes as s = { s with mem := (drawBytes as s).mem, draws := s.draws + as.length } := by
  induction as generalizing s with
  | nil => rfl
  | cons a rest ih =>
    rw [drawBytes, ih, drawByte_eq]
    simp only [List.length_cons]
    congr 1
    show s.draws + 1 + rest.length = s.draws + (rest.length + 1)
    omega

@[simp] theorem drawBytes_regs (as : List Nat) (s : State) : (drawBytes as s).regs = s.regs := by
  rw [drawBytes_eq]

@[simp] theorem drawBytes_latch (as : List Nat) (s : State) : (drawBytes as s).latch = s.latch := by
  rw [drawBytes_eq]

@[simp] theorem drawBytes_hidden (as : List Nat) (s : State) : (drawBytes as s).hidden = s.hidden := by
  rw [drawBytes_eq]

@[simp] theorem drawBytes_rst (as : List Nat) (s : State) : (drawBytes as s).rst = s.rst := by
  rw [drawBytes_eq]

@[simp] theorem drawBytes_platform (as : List Nat) (s : State) : (drawBytes as s).platform = s.platform := by
  rw [drawBytes_eq]

@[simp] theorem drawBytes_inputs (as : List Nat) (s : State) : (drawBytes as s).inputs = s.inputs := by
  rw [drawBytes_eq]

@[simp] theorem drawBytes_responses (as : List Nat) (s : State) : (drawBytes as s).responses = s.responses := by
  rw [drawBytes_eq]

/-- Drawing bytes leaves every address it is not given as it was. -/
theorem drawBytes_read_other (as : List Nat) (s : State) {a : Nat} (h : a ∉ as) :
    Memory.read (drawBytes as s).mem a = Memory.read s.mem a := by
  induction as generalizing s with
  | nil => rfl
  | cons b rest ih =>
    simp only [List.mem_cons, not_or] at h
    rw [drawBytes, ih _ h.2, drawByte_read_other b a s h.1]

/-- Drawing bytes keeps the canonical form. -/
theorem drawBytes_wf (as : List Nat) (s : State) (h : Memory.wf s.mem) (ha : ∀ a ∈ as, a < 2 ^ 32) :
    Memory.wf (drawBytes as s).mem := by
  induction as generalizing s with
  | nil => exact h
  | cons b rest ih =>
    rw [drawBytes]
    exact ih _ (drawByte_wf b s h (ha b (List.mem_cons_self ..))) fun a hm => ha a (List.mem_cons_of_mem _ hm)

end Sys2Proof.Machine
end

