-- ==== Sys2Proof/Laws/Operands.lean ====
section
/-!
SUPPORT. What the operand functions compute: windows as sets of addresses (20_memory R66), sizes (30_encoding R95, R98),
the configuration checks (60_exceptions R202) and the admission of the windows (60_exceptions R219).
-/

namespace Sys2Proof.Machine

@[simp] theorem mem_coords {h w r c : Nat} : (r, c) ∈ coords h w ↔ r < h ∧ c < w := by
  simp [coords]

theorem mem_addrs {sz : Size} {u : UsedView} {a : Nat} :
    a ∈ u.addrs sz ↔ ∃ r < u.role.rows sz, ∃ c < u.role.cols sz, a = pixAddr u.view r c := by
  simp only [UsedView.addrs, List.mem_map, Prod.exists, mem_coords]
  constructor
  · rintro ⟨r, c, ⟨hr, hc⟩, rfl⟩
    exact ⟨r, hr, c, hc, rfl⟩
  · rintro ⟨r, hr, c, hc, rfl⟩
    exact ⟨r, c, ⟨hr, hc⟩, rfl⟩

/-- The quick test of a window is membership in its list of addresses. -/
theorem covers_iff {sz : Size} {u : UsedView} {a : Nat} : u.covers sz a = true ↔ a ∈ u.addrs sz := by
  rw [mem_addrs]
  simp only [UsedView.covers, List.any_eq_true, List.mem_range, Bool.and_eq_true]
  constructor
  · rintro ⟨r, hr, h1, h2⟩
    have h1 := of_decide_eq_true h1
    have h2 := of_decide_eq_true h2
    unfold pixAddr at h1 h2 ⊢
    exact ⟨r, hr, a - (u.view.addr.toNat + r * u.view.stride.toNat), by omega, by omega⟩
  · rintro ⟨r, hr, c, hc, rfl⟩
    refine ⟨r, hr, decide_eq_true ?_, decide_eq_true ?_⟩ <;> unfold pixAddr <;> omega

theorem mem_accessAddrs {i : Instr} {l : Latch} {sz : Size} {a : Nat} :
    a ∈ accessAddrs i l sz ↔ ∃ u ∈ usedViews i l, a ∈ u.addrs sz := by
  simp [accessAddrs]

theorem mem_destAddrs {i : Instr} {l : Latch} {sz : Size} {a : Nat} :
    a ∈ destAddrs i l sz ↔ ∃ u ∈ usedViews i l, u.role = .dest ∧ a ∈ u.addrs sz := by
  simp [destAddrs, and_assoc]

theorem mem_accessAddrs_of_dest {i : Instr} {l : Latch} {sz : Size} {a : Nat} (h : a ∈ destAddrs i l sz) :
    a ∈ accessAddrs i l sz := by
  obtain ⟨u, hu, -, ha⟩ := mem_destAddrs.mp h
  exact mem_accessAddrs.mpr ⟨u, hu, ha⟩

theorem inWindows_iff {i : Instr} {l : Latch} {sz : Size} {a : Nat} :
    inWindows i l sz a = true ↔ a ∈ accessAddrs i l sz := by
  simp [inWindows, mem_accessAddrs, covers_iff]

theorem inDest_iff {i : Instr} {l : Latch} {sz : Size} {a : Nat} :
    inDest i l sz a = true ↔ a ∈ destAddrs i l sz := by
  simp [inDest, mem_destAddrs, covers_iff]

theorem inReads_iff {i : Instr} {l : Latch} {sz : Size} {a : Nat} :
    inReads i l sz a = true ↔ ∃ u ∈ usedViews i l, u.role ≠ .dest ∧ a ∈ u.addrs sz := by
  simp [inReads, covers_iff]

/-- A command stores to the window of D, and only INTERP and INTERP_AVG store at all (20_memory R61, R66). -/
theorem mem_destAddrs_cases {i : Instr} {l : Latch} {sz : Size} {a : Nat} (h : a ∈ destAddrs i l sz) :
    ((∃ wc hc xp yp, i = .interp wc hc xp yp) ∨ (∃ wc hc xp yp, i = .interpAvg wc hc xp yp)) ∧
      ∃ r c, r < sz.h ∧ c < sz.w ∧ a = pixAddr l.viewD r c := by
  obtain ⟨u, hu, hd, ha⟩ := mem_destAddrs.mp h
  cases i <;> simp [usedViews] at hu <;> rcases hu with rfl | rfl | rfl <;> simp at hd <;>
    (obtain ⟨r, hr, c, hc, rfl⟩ := mem_addrs.mp ha
     exact ⟨by simp, r, c, hr, hc, rfl⟩)

theorem overlaps_false_iff {i : Instr} {l : Latch} {sz : Size} : overlaps i l sz = false ↔ NoOverlap i l sz := by
  rw [← Bool.not_eq_true]
  simp only [overlaps, List.any_eq_true, mem_destAddrs, inReads_iff, NoOverlap]
  constructor
  · intro h d hd hdr u hu hur a ha hau
    exact h ⟨a, ⟨d, hd, hdr, ha⟩, u, hu, hur, hau⟩
  · rintro h ⟨a, ⟨d, hd, hdr, ha⟩, u, hu, hur, hau⟩
    exact h d hd hdr u hu hur a ha hau

/-! ## Sizes -/

/-- The size decoding of 30_encoding R95 succeeds exactly for the pairs 30_encoding R98 calls legal. -/
theorem sizeDecode_isSome_iff : ∀ wc hc : SizeCode, (sizeDecode wc hc).isSome = SizeCode.legalPair wc hc := by
  decide

/-- What a decoded size is: W = 4 · 2^WCODE, H = 4 · 2^HCODE, N = W · H = 2^L, each dimension from 4 to 64. -/
theorem sizeDecode_spec : ∀ (wc hc : SizeCode) (sz : Size), sizeDecode wc hc = some sz →
    sz.w = 4 * 2 ^ wc.toNat ∧ sz.h = 4 * 2 ^ hc.toNat ∧ sz.w * sz.h = 2 ^ sz.l ∧
      4 ≤ sz.w ∧ sz.w ≤ 64 ∧ 4 ≤ sz.h ∧ sz.h ≤ 64 := by
  have key : ∀ wc hc : SizeCode, ∀ sz ∈ sizeDecode wc hc,
      sz.w = 4 * 2 ^ wc.toNat ∧ sz.h = 4 * 2 ^ hc.toNat ∧ sz.w * sz.h = 2 ^ sz.l ∧
        4 ≤ sz.w ∧ sz.w ≤ 64 ∧ 4 ≤ sz.h ∧ sz.h ≤ 64 := by decide
  intro wc hc sz h
  exact key wc hc sz (by simp [h])

theorem sizeDecode_none_iff {wc hc : SizeCode} : sizeDecode wc hc = none ↔ SizeCode.legalPair wc hc = false := by
  rw [← sizeDecode_isSome_iff]
  cases sizeDecode wc hc <;> simp

/-! ## The configuration checks -/

theorem checkConfig_ok_iff {i : Instr} {l : Latch} {sz : Size} :
    checkConfig i l = .ok sz ↔ LegalConfig i l sz := by
  unfold checkConfig
  cases hs : sizeDecode i.wcode i.hcode with
  | none => simp [hs]
  | some sz' =>
    simp only
    split
    · rename_i h
      simp only [List.any_eq_true, decide_eq_true_eq] at h
      simp only [reduceCtorEq, false_iff, hs, LegalConfig, Option.some.injEq, not_and]
      rintro rfl hall
      obtain ⟨u, hu, hlt⟩ := h
      exact absurd (hall u hu).1 (by omega)
    · split
      · rename_i h
        simp only [List.any_eq_true, decide_eq_true_eq] at h
        simp only [reduceCtorEq, false_iff, hs, LegalConfig, Option.some.injEq, not_and]
        rintro rfl hall
        obtain ⟨u, hu, hlt⟩ := h
        exact absurd (hall u hu).2 (by omega)
      · rename_i h1 h2
        simp only [List.any_eq_true, decide_eq_true_eq, not_exists, not_and, Nat.not_lt] at h1 h2
        simp only [Except.ok.injEq, hs, LegalConfig, Option.some.injEq]
        exact ⟨fun e => ⟨e, fun u hu => ⟨e ▸ h1 u hu, e ▸ h2 u hu⟩⟩, fun e => e.1⟩

/-- The error of the checks, when there is one, is one of the three that follow decoding. -/
theorem checkConfig_error_cases {i : Instr} {l : Latch} {e : CmdError} (h : checkConfig i l = .error e) :
    e = .badSize ∨ e = .badStride ∨ e = .addrWrap := by
  unfold checkConfig at h
  split at h
  · cases h; simp
  · split at h
    · cases h; simp
    · split at h
      · cases h; simp
      · cases h

theorem checkConfig_badSize {i : Instr} {l : Latch} (h : sizeDecode i.wcode i.hcode = none) :
    checkConfig i l = .error .badSize := by
  simp [checkConfig, h]

theorem checkConfig_badStride {i : Instr} {l : Latch} {sz : Size} {u : UsedView}
    (h : sizeDecode i.wcode i.hcode = some sz) (hu : u ∈ usedViews i l) (hlt : u.view.stride.toNat < sz.w) :
    checkConfig i l = .error .badStride := by
  have : (usedViews i l).any (fun u => decide (u.view.stride.toNat < sz.w)) = true :=
    List.any_eq_true.mpr ⟨u, hu, by simpa using hlt⟩
  simp [checkConfig, h, this]

theorem checkConfig_addrWrap {i : Instr} {l : Latch} {sz : Size} {u : UsedView}
    (h : sizeDecode i.wcode i.hcode = some sz) (hs : ∀ v ∈ usedViews i l, sz.w ≤ v.view.stride.toNat)
    (hu : u ∈ usedViews i l) (hlt : 0xFFFFFFFF < u.lastAddr sz) : checkConfig i l = .error .addrWrap := by
  have h1 : (usedViews i l).any (fun u => decide (u.view.stride.toNat < sz.w)) = false := by
    rw [← Bool.not_eq_true]
    simpa using hs
  have h2 : (usedViews i l).any (fun u => decide (0xFFFFFFFF < u.lastAddr sz)) = true :=
    List.any_eq_true.mpr ⟨u, hu, by simpa using hlt⟩
  simp only [checkConfig, h, h1, h2]
  rfl

/-- No address of a window is beyond the last one (20_memory R69). -/
theorem le_lastAddr {sz : Size} {u : UsedView} {a : Nat} (h : a ∈ u.addrs sz) : a ≤ u.lastAddr sz := by
  obtain ⟨r, hr, c, hc, rfl⟩ := mem_addrs.mp h
  have : r * u.view.stride.toNat ≤ (u.role.rows sz - 1) * u.view.stride.toNat :=
    Nat.mul_le_mul_right _ (by omega)
  unfold pixAddr UsedView.lastAddr
  omega

/-- Every address of a command that passes its checks is one of the 2^32 there are (20_memory R69). -/
theorem LegalConfig.access_lt {i : Instr} {l : Latch} {sz : Size} (h : LegalConfig i l sz) {a : Nat}
    (ha : a ∈ accessAddrs i l sz) : a < 2 ^ 32 := by
  obtain ⟨u, hu, hau⟩ := mem_accessAddrs.mp ha
  have := le_lastAddr hau
  have := (h.2 u hu).2
  omega

/-! ## Admission -/

/-- The cases of `admission`, each with what it says of the windows. -/
theorem admission_cases (i : Instr) (l : Latch) (p : Platform) (sz : Size) :
    (admission i l p sz = .nonIdempotent ∧ ∃ a ∈ accessAddrs i l sz, p.kindOf a = some .device) ∨
    (admission i l p sz = .unadmitted ∧ (∀ a ∈ accessAddrs i l sz, p.kindOf a ≠ some .device) ∧
      ∃ a ∈ accessAddrs i l sz, p.kindOf a = none) ∨
    (admission i l p sz = .overlap ∧
      (∀ a ∈ accessAddrs i l sz, p.kindOf a = some .ram ∨ p.kindOf a = some .unbacked) ∧ ¬ NoOverlap i l sz) ∨
    (∃ as, admission i l p sz = .unanswered as ∧
      (∀ a ∈ accessAddrs i l sz, p.kindOf a = some .ram ∨ p.kindOf a = some .unbacked) ∧ NoOverlap i l sz ∧
      as ≠ [] ∧ ∀ a ∈ as, a ∈ accessAddrs i l sz ∧ p.kindOf a = some .unbacked) ∨
    (admission i l p sz = .clear ∧ (∀ a ∈ accessAddrs i l sz, p.kindOf a = some .ram) ∧ NoOverlap i l sz) := by
  unfold admission
  by_cases h1 : (accessAddrs i l sz).any (fun a => decide (p.kindOf a = some .device)) = true
  · rw [if_pos h1]
    exact .inl ⟨rfl, by simpa using h1⟩
  rw [if_neg h1]
  have d1 : ∀ a ∈ accessAddrs i l sz, p.kindOf a ≠ some .device := by simpa using h1
  by_cases h2 : (accessAddrs i l sz).any (fun a => decide (p.kindOf a = none)) = true
  · rw [if_pos h2]
    exact .inr (.inl ⟨rfl, d1, by simpa using h2⟩)
  rw [if_neg h2]
  have d2 : ∀ a ∈ accessAddrs i l sz, p.kindOf a = some .ram ∨ p.kindOf a = some .unbacked := by
    intro a ha
    have e1 := d1 a ha
    have e2 : p.kindOf a ≠ none := by
      intro hn
      exact h2 (List.any_eq_true.mpr ⟨a, ha, by simpa using hn⟩)
    cases hk : p.kindOf a with
    | none => exact absurd hk e2
    | some k => cases k <;> simp_all
  by_cases h3 : overlaps i l sz = true
  · rw [if_pos h3]
    refine .inr (.inr (.inl ⟨rfl, d2, fun hn => ?_⟩))
    rw [overlaps_false_iff.mpr hn] at h3
    cases h3
  rw [if_neg h3]
  have d3 : NoOverlap i l sz := overlaps_false_iff.mp (by simpa using h3)
  by_cases h4 : (accessAddrs i l sz).any (fun a => decide (p.kindOf a = some .unbacked)) = true
  · rw [if_pos h4]
    refine .inr (.inr (.inr (.inl ⟨_, rfl, d2, d3, ?_, ?_⟩)))
    · obtain ⟨a, ha, hk⟩ := List.any_eq_true.mp h4
      exact List.ne_nil_of_mem (List.mem_filter.mpr ⟨ha, hk⟩)
    · intro a ha
      simpa using List.mem_filter.mp ha
  · rw [if_neg h4]
    refine .inr (.inr (.inr (.inr ⟨rfl, fun a ha => ?_, d3⟩)))
    refine (d2 a ha).resolve_right fun hk => ?_
    exact h4 (List.any_eq_true.mpr ⟨a, ha, by simpa using hk⟩)

end Sys2Proof.Machine
end

