-- ==== Sys2Proof/Laws/Command.lean ====
section
/-!
SUPPORT. What a command can do, said once: `runCommand` runs its body at a clean launch, and otherwise ends in one of the
ways 60_exceptions R202 to R206 and R219 give; and what the command in flight is.
-/

namespace Sys2Proof.Machine

/-- At a clean launch a command has its own effect (70_reset_and_hazards R256). -/
theorem runCommand_clean {i : Instr} {sz : Size} {s : State} (body : Size → State → State) (h : CleanLaunch i sz s) :
    runCommand i body s = .next (body sz s) := by
  obtain ⟨hc, hr, hn⟩ := h
  have had : admission i s.latch s.platform sz = .clear := by
    rcases admission_cases i s.latch s.platform sz with ⟨-, a, ha, hk⟩ | ⟨-, -, a, ha, hk⟩ | ⟨-, -, h⟩ |
      ⟨as, -, -, -, hne, h⟩ | ⟨h, -⟩
    · rw [hr a ha] at hk; cases hk
    · rw [hr a ha] at hk; cases hk
    · exact absurd hn h
    · obtain ⟨a, rest, rfl⟩ := List.exists_cons_of_ne_nil hne
      obtain ⟨ha, hk⟩ := h a (List.mem_cons_self ..)
      rw [hr a ha] at hk; cases hk
    · exact h
  simp only [runCommand, checkConfig_ok_iff.mpr hc, had]

/-- Everything a command can do. -/
theorem runCommand_cases (i : Instr) (body : Size → State → State) (s : State) :
    (∃ e, checkConfig i s.latch = .error e ∧ runCommand i body s = .next (completeErr e 0 s)) ∨
    (∃ sz, LegalConfig i s.latch sz ∧
      ((runCommand i body s = .refused .nonIdempotent ∧
          ∃ a ∈ accessAddrs i s.latch sz, s.platform.kindOf a = some .device) ∨
       (runCommand i body s = .fault .unadmitted ∧
          (∀ a ∈ accessAddrs i s.latch sz, s.platform.kindOf a ≠ some .device) ∧
          ∃ a ∈ accessAddrs i s.latch sz, s.platform.kindOf a = none) ∨
       (runCommand i body s = .fault .overlap ∧
          (∀ a ∈ accessAddrs i s.latch sz,
            s.platform.kindOf a = some .ram ∨ s.platform.kindOf a = some .unbacked) ∧
          ¬ NoOverlap i s.latch sz) ∨
       (∃ as, runCommand i body s = .next (busResponse i sz as s) ∧
          (∀ a ∈ accessAddrs i s.latch sz,
            s.platform.kindOf a = some .ram ∨ s.platform.kindOf a = some .unbacked) ∧
          NoOverlap i s.latch sz ∧ as ≠ [] ∧
          ∀ a ∈ as, a ∈ accessAddrs i s.latch sz ∧ s.platform.kindOf a = some .unbacked) ∨
       (runCommand i body s = .next (body sz s) ∧ CleanLaunch i sz s))) := by
  cases hc : checkConfig i s.latch with
  | error e => exact .inl ⟨e, rfl, by simp only [runCommand, hc]⟩
  | ok sz =>
    have hl := checkConfig_ok_iff.mp hc
    refine .inr ⟨sz, hl, ?_⟩
    rcases admission_cases i s.latch s.platform sz with ⟨h, h'⟩ | ⟨h, h'⟩ | ⟨h, h'⟩ | ⟨as, h, h'⟩ | ⟨h, h'⟩
    · exact .inl ⟨by simp only [runCommand, hc, h], h'⟩
    · exact .inr (.inl ⟨by simp only [runCommand, hc, h], h'⟩)
    · exact .inr (.inr (.inl ⟨by simp only [runCommand, hc, h], h'⟩))
    · exact .inr (.inr (.inr (.inl ⟨as, by simp only [runCommand, hc, h], h'⟩)))
    · exact .inr (.inr (.inr (.inr ⟨by simp only [runCommand, hc, h], hl, h'⟩)))

/-- Every next state of a command: an error of its checks, a platform that does not answer with data, or its own
effect at a clean launch. -/
theorem runCommand_next {i : Instr} {body : Size → State → State} {s t : State}
    (h : runCommand i body s = .next t) :
    (∃ e, checkConfig i s.latch = .error e ∧ t = completeErr e 0 s) ∨
    (∃ sz as, LegalConfig i s.latch sz ∧ as ≠ [] ∧
      (∀ a ∈ as, a ∈ accessAddrs i s.latch sz ∧ s.platform.kindOf a = some .unbacked) ∧
      t = busResponse i sz as s) ∨
    (∃ sz, CleanLaunch i sz s ∧ t = body sz s) := by
  rcases runCommand_cases i body s with ⟨e, hc, h'⟩ | ⟨sz, hl, ⟨h', -⟩ | ⟨h', -⟩ | ⟨h', -⟩ | ⟨as, h', -, -, hne, ha⟩ |
    ⟨h', hcl⟩⟩ <;> rw [h'] at h <;> cases h
  · exact .inl ⟨e, hc, rfl⟩
  · exact .inr (.inl ⟨sz, as, hl, hne, ha, rfl⟩)
  · exact .inr (.inr ⟨sz, hcl, rfl⟩)

/-- What a platform that does not answer with data leaves (60_exceptions R204): with response `error` a bus error at one
of the unanswered addresses, drawn destination bytes and a moved counter; with `hang` the state as it was. -/
theorem busResponse_cases (i : Instr) (sz : Size) {as : List Nat} (s : State) (hne : as ≠ []) :
    (s.platform.busErrResponse = .hang ∧ busResponse i sz as s = s) ∨
    (s.platform.busErrResponse = .error ∧ ∃ a ∈ as, busResponse i sz as s =
      completeErr .busErr (BitVec.ofNat 32 a) (drawBytes (destAddrs i s.latch sz) (s.setDraws (s.draws + 1)))) := by
  unfold busResponse
  cases s.platform.busErrResponse with
  | hang => exact .inl ⟨rfl, rfl⟩
  | error =>
    have hlt : Config.freePick s.draws % as.length < as.length := Nat.mod_lt _ (List.length_pos_of_ne_nil hne)
    refine .inr ⟨rfl, as[Config.freePick s.draws % as.length], List.getElem_mem hlt, ?_⟩
    simp [hlt]

/-- The command in flight (20_memory R85): BUSY, the latched word a command, its checks passed. -/
theorem inFlight_eq_some_iff {s : State} {i : Instr} {sz : Size} :
    inFlight s = some (i, sz) ↔
      s.regs.busy = true ∧ decodeWord s.latch.cmd = .ok i ∧ LegalConfig i s.latch sz := by
  rw [← checkConfig_ok_iff]
  unfold inFlight fetchWord
  cases s.regs.busy with
  | false => simp
  | true =>
    cases hd : decodeWord s.latch.cmd with
    | error e => simp
    | ok j =>
      simp only [if_true, true_and, Except.ok.injEq]
      constructor
      · intro h
        cases hc : checkConfig j s.latch with
        | error e => simp [hc] at h
        | ok sz' =>
          simp only [hc, Option.some.injEq, Prod.mk.injEq] at h
          obtain ⟨rfl, rfl⟩ := h
          exact ⟨rfl, hc⟩
      · rintro ⟨rfl, h⟩
        simp only [h]

/-- Nothing is in flight while IDLE (10_state R53). -/
theorem inFlight_idle {s : State} (h : s.regs.busy = false) : inFlight s = none := by
  simp [inFlight, h]

end Sys2Proof.Machine
end

