-- ==== Sys2Proof/Laws/Decode.lean ====
section
/-!
SUPPORT. The fields of an assembled command word (30_encoding R91), the opcode map (R93) and the rows of the opcode table
(R104).
-/

namespace Sys2Proof

/-- The bits of an assembled word, from the lowest field up (30_encoding R91). -/
theorem getLsbD_assembleWord (yp xp : Phase) (hc wc : SizeCode) (op : BitVec 4) (k : Nat) :
    (assembleWord yp xp hc wc op).getLsbD k =
      if k < 4 then op.getLsbD k else if k - 4 < 3 then wc.getLsbD (k - 4)
      else if k - 4 - 3 < 3 then hc.getLsbD (k - 4 - 3) else if k - 4 - 3 - 3 < 3 then xp.getLsbD (k - 4 - 3 - 3)
      else if k - 4 - 3 - 3 - 3 < 3 then yp.getLsbD (k - 4 - 3 - 3 - 3) else false := by
  unfold assembleWord
  show BitVec.getLsbD (w := 16 + 3 + 3 + 3 + 3 + 4) (0#16 ++ yp ++ xp ++ hc ++ wc ++ op) k = _
  simp only [BitVec.getLsbD_append, BitVec.getLsbD_zero]

theorem opField_assembleWord (yp xp : Phase) (hc wc : SizeCode) (op : BitVec 4) :
    opField (assembleWord yp xp hc wc op) = op := by
  apply BitVec.eq_of_getLsbD_eq
  intro k hk
  interval_cases k <;> simp [opField, BitVec.getLsbD_extractLsb', getLsbD_assembleWord, -BitVec.getLsbD_eq_getElem]

theorem wcodeField_assembleWord (yp xp : Phase) (hc wc : SizeCode) (op : BitVec 4) :
    wcodeField (assembleWord yp xp hc wc op) = wc := by
  apply BitVec.eq_of_getLsbD_eq
  intro k hk
  interval_cases k <;> simp [wcodeField, BitVec.getLsbD_extractLsb', getLsbD_assembleWord, -BitVec.getLsbD_eq_getElem]

theorem hcodeField_assembleWord (yp xp : Phase) (hc wc : SizeCode) (op : BitVec 4) :
    hcodeField (assembleWord yp xp hc wc op) = hc := by
  apply BitVec.eq_of_getLsbD_eq
  intro k hk
  interval_cases k <;> simp [hcodeField, BitVec.getLsbD_extractLsb', getLsbD_assembleWord, -BitVec.getLsbD_eq_getElem]

theorem xphaseField_assembleWord (yp xp : Phase) (hc wc : SizeCode) (op : BitVec 4) :
    xphaseField (assembleWord yp xp hc wc op) = xp := by
  apply BitVec.eq_of_getLsbD_eq
  intro k hk
  interval_cases k <;> simp [xphaseField, BitVec.getLsbD_extractLsb', getLsbD_assembleWord, -BitVec.getLsbD_eq_getElem]

theorem yphaseField_assembleWord (yp xp : Phase) (hc wc : SizeCode) (op : BitVec 4) :
    yphaseField (assembleWord yp xp hc wc op) = yp := by
  apply BitVec.eq_of_getLsbD_eq
  intro k hk
  interval_cases k <;> simp [yphaseField, BitVec.getLsbD_extractLsb', getLsbD_assembleWord, -BitVec.getLsbD_eq_getElem]

theorem rsvdBits_assembleWord (yp xp : Phase) (hc wc : SizeCode) (op : BitVec 4) :
    rsvdBits (assembleWord yp xp hc wc op) = 0 := by
  apply BitVec.eq_of_getLsbD_eq
  intro k hk
  interval_cases k <;> simp [rsvdBits, BitVec.getLsbD_extractLsb', getLsbD_assembleWord, -BitVec.getLsbD_eq_getElem]

/-- Every op is read back from its code (30_encoding R93). -/
theorem opOf_opCode : ∀ op : Op, opOf (opCode op) = some op := by
  intro op
  cases op <;> decide

/-- A code is an op's exactly when it is 1 to 6 (30_encoding R93). -/
theorem opOf_eq_none_iff : ∀ f : BitVec 4, opOf f = none ↔ f.toNat = 0 ∨ 6 < f.toNat := by decide

/-- No word selects two rows of the opcode table (30_encoding R104). -/
theorem opcodeRows_disjoint :
    opcodeRows.Pairwise fun p q => p.matchBits &&& q.mask ≠ q.matchBits &&& p.mask := by decide

/-- The rows' words are told apart by their low four bits, which every mask covers. -/
theorem opcodeRows_masks : ∀ row ∈ opcodeRows, row.mask &&& 0xF = 0xF := by decide

end Sys2Proof
end

