-- ==== Sys2Proof/Laws/Statistics.lean ====
section
/-!
SUPPORT. The reduction as sums over the block (41_statistics R120), their bounds (R121, R124), the variance as exact
division (R122) and its bounds (R123).
-/

namespace Sys2Proof.Machine

theorem coords_zero (w : Nat) : coords 0 w = [] := rfl

theorem coords_succ (h w : Nat) : coords (h + 1) w = coords h w ++ (List.range w).map fun c => (h, c) := by
  simp [coords, List.range_succ]

/-- The sum of a function over the positions of a block, row by row. -/
theorem sum_map_coords (h w : Nat) (f : Nat → Nat → Int) :
    ((coords h w).map fun p => f p.1 p.2).sum = ∑ r ∈ Finset.range h, ∑ c ∈ Finset.range w, f r c := by
  induction h with
  | zero => rfl
  | succ h ih =>
    rw [coords_succ, List.map_append, List.sum_append, ih, Finset.sum_range_succ, List.map_map]
    congr 1

/-- The reduction's fold adds Σ d² and Σ d to what it starts from. -/
theorem foldl_reduceStep (x y : Nat → Nat → Nat) (ps : List (Nat × Nat)) (acc : Nat × Int) :
    ((ps.foldl (reduceStep x y) acc).1 : Int) =
        acc.1 + (ps.map fun p => ((x p.1 p.2 : Int) - (y p.1 p.2 : Int)) ^ 2).sum ∧
      (ps.foldl (reduceStep x y) acc).2 =
        acc.2 + (ps.map fun p => ((x p.1 p.2 : Int) - (y p.1 p.2 : Int))).sum := by
  induction ps generalizing acc with
  | nil => simp
  | cons p rest ih =>
    obtain ⟨h1, h2⟩ := ih (reduceStep x y acc p)
    rw [List.foldl_cons, h1, h2]
    simp only [reduceStep, List.map_cons, List.sum_cons, Nat.cast_add, Nat.cast_mul, Int.natCast_natAbs]
    constructor
    · rw [abs_mul_abs_self]; ring
    · ring

theorem reduce_fst (sz : Size) (x y : Nat → Nat → Nat) : ((reduce sz x y).1 : Int) = sumSquares sz x y := by
  rw [reduce, (foldl_reduceStep x y _ _).1]
  simp only [Nat.cast_zero, zero_add, sumSquares]
  exact sum_map_coords sz.h sz.w fun r c => ((x r c : Int) - (y r c : Int)) ^ 2

theorem reduce_snd (sz : Size) (x y : Nat → Nat → Nat) : (reduce sz x y).2 = sumDiffs sz x y := by
  rw [reduce, (foldl_reduceStep x y _ _).2]
  simp only [zero_add, sumDiffs]
  exact sum_map_coords sz.h sz.w fun r c => (x r c : Int) - (y r c : Int)

theorem sumSquares_nonneg (sz : Size) (x y : Nat → Nat → Nat) : 0 ≤ sumSquares sz x y :=
  Finset.sum_nonneg fun _ _ => Finset.sum_nonneg fun _ _ => sq_nonneg _

/-- Cauchy and Schwarz: (Σ d)² ≤ N · Σ d² (41_statistics R123). -/
theorem sumDiffs_sq_le (sz : Size) (x y : Nat → Nat → Nat) :
    sumDiffs sz x y ^ 2 ≤ (sz.w : Int) * (sz.h : Int) * sumSquares sz x y := by
  have h := sq_sum_le_card_mul_sum_sq (s := Finset.range sz.h ×ˢ Finset.range sz.w)
    (f := fun p => (x p.1 p.2 : Int) - (y p.1 p.2 : Int))
  rw [Finset.sum_product, Finset.sum_product, Finset.card_product, Finset.card_range, Finset.card_range] at h
  unfold sumDiffs sumSquares
  calc _ ≤ _ := h
    _ = _ := by push_cast; ring

/-- A reduction depends on the samples of the block only. -/
theorem reduce_congr {sz : Size} {x y x' y' : Nat → Nat → Nat} (hx : ∀ r < sz.h, ∀ c < sz.w, x r c = x' r c)
    (hy : ∀ r < sz.h, ∀ c < sz.w, y r c = y' r c) : reduce sz x y = reduce sz x' y' := by
  refine List.foldl_ext _ _ _ fun acc p hp => ?_
  obtain ⟨hr, hc⟩ := mem_coords.mp (show (p.1, p.2) ∈ coords sz.h sz.w from hp)
  simp [reduceStep, hx _ hr _ hc, hy _ hr _ hc]

/-- A block of 8-bit samples (10_state R50 to R52). -/
def IsPixels (sz : Size) (x : Nat → Nat → Nat) : Prop := ∀ r < sz.h, ∀ c < sz.w, x r c ≤ 255

theorem pix_le (m : Memory) (v : View) (r c : Nat) : pix m v r c ≤ 255 := by
  have := (Memory.byteAt m (pixAddr v r c)).isLt
  unfold pix
  omega

theorem isPixels_pix (sz : Size) (m : Memory) (v : View) : IsPixels sz (pix m v) := fun _ _ _ _ => pix_le ..

/-- Σ d² is at most 65025 a pixel (41_statistics R121). -/
theorem sumSquares_le {sz : Size} {x y : Nat → Nat → Nat} (hx : IsPixels sz x) (hy : IsPixels sz y) :
    sumSquares sz x y ≤ (sz.h : Int) * ((sz.w : Int) * 65025) := by
  have hrow : ∀ r ∈ Finset.range sz.h,
      ∑ c ∈ Finset.range sz.w, ((x r c : Int) - (y r c : Int)) ^ 2 ≤ (sz.w : Int) * 65025 := by
    intro r hr
    have := Finset.sum_le_card_nsmul (Finset.range sz.w)
      (fun c => ((x r c : Int) - (y r c : Int)) ^ 2) 65025 fun c hc => by
        have h1 := hx r (Finset.mem_range.mp hr) c (Finset.mem_range.mp hc)
        have h2 := hy r (Finset.mem_range.mp hr) c (Finset.mem_range.mp hc)
        nlinarith [Int.natCast_nonneg (x r c), Int.natCast_nonneg (y r c),
          (by exact_mod_cast h1 : (x r c : Int) ≤ 255), (by exact_mod_cast h2 : (y r c : Int) ≤ 255)]
    simpa using this
  have := Finset.sum_le_card_nsmul _ _ _ hrow
  simpa [sumSquares] using this

/-- |Σ d| is at most 255 a pixel (41_statistics R124). -/
theorem abs_sumDiffs_le {sz : Size} {x y : Nat → Nat → Nat} (hx : IsPixels sz x) (hy : IsPixels sz y) :
    |sumDiffs sz x y| ≤ (sz.h : Int) * ((sz.w : Int) * 255) := by
  have hrow : ∀ r ∈ Finset.range sz.h,
      |∑ c ∈ Finset.range sz.w, ((x r c : Int) - (y r c : Int))| ≤ (sz.w : Int) * 255 := by
    intro r hr
    refine (Finset.abs_sum_le_sum_abs _ _).trans ?_
    have := Finset.sum_le_card_nsmul (Finset.range sz.w)
      (fun c => |(x r c : Int) - (y r c : Int)|) 255 fun c hc => by
        have h1 := hx r (Finset.mem_range.mp hr) c (Finset.mem_range.mp hc)
        have h2 := hy r (Finset.mem_range.mp hr) c (Finset.mem_range.mp hc)
        rw [abs_le]
        constructor <;> omega
    simpa using this
  refine (Finset.abs_sum_le_sum_abs _ _).trans ?_
  have := Finset.sum_le_card_nsmul _ _ _ hrow
  simpa using this

/-- A legal size has at most 4096 pixels and as many as 2^L says (00_scope R8, R12). -/
theorem size_pixels {wc hc : SizeCode} {sz : Size} (h : sizeDecode wc hc = some sz) :
    sz.w * sz.h = 2 ^ sz.l ∧ 0 < sz.w * sz.h ∧ (sz.h : Int) * (sz.w : Int) ≤ 4096 := by
  obtain ⟨-, -, hl, hw, hw', hh, hh'⟩ := sizeDecode_spec wc hc sz h
  refine ⟨hl, Nat.mul_pos (by omega) (by omega), ?_⟩
  have : sz.h * sz.w ≤ 64 * 64 := Nat.mul_le_mul hh' hw'
  exact_mod_cast this

/-- The bounds of the accumulators at a legal size (41_statistics R121, R124). -/
theorem sums_bounded {wc hc : SizeCode} {sz : Size} (h : sizeDecode wc hc = some sz) {x y : Nat → Nat → Nat}
    (hx : IsPixels sz x) (hy : IsPixels sz y) :
    0 ≤ sumSquares sz x y ∧ sumSquares sz x y ≤ 266342400 ∧ |sumDiffs sz x y| ≤ 1044480 := by
  have hn := (size_pixels h).2.2
  refine ⟨sumSquares_nonneg .., (sumSquares_le hx hy).trans ?_, (abs_sumDiffs_le hx hy).trans ?_⟩ <;> nlinarith

/-- The variance the engine computes with a shift is Σ d² − (Σ d)² / N, the division truncating; it lies between 0 and
Σ d² (41_statistics R122, R123). -/
theorem variance_eq {wc hc : SizeCode} {sz : Size} (h : sizeDecode wc hc = some sz) (x y : Nat → Nat → Nat) :
    ((variance sz (reduce sz x y).1 (reduce sz x y).2 : Nat) : Int) = varianceOf sz x y ∧
      0 ≤ varianceOf sz x y ∧ varianceOf sz x y ≤ sumSquares sz x y := by
  obtain ⟨hl, hpos, -⟩ := size_pixels h
  have hposI : (0 : Int) < (sz.w : Int) * (sz.h : Int) := by exact_mod_cast hpos
  have hq0 : 0 ≤ sumDiffs sz x y ^ 2 / ((sz.w : Int) * (sz.h : Int)) := Int.ediv_nonneg (sq_nonneg _) hposI.le
  have hq1 : sumDiffs sz x y ^ 2 / ((sz.w : Int) * (sz.h : Int)) ≤ sumSquares sz x y := by
    have := Int.ediv_le_ediv hposI (sumDiffs_sq_le sz x y)
    rwa [Int.mul_ediv_cancel_left _ hposI.ne'] at this
  have hq : (((reduce sz x y).2.natAbs * (reduce sz x y).2.natAbs) >>> sz.l : Nat) =
      sumDiffs sz x y ^ 2 / ((sz.w : Int) * (sz.h : Int)) := by
    rw [Nat.shiftRight_eq_div_pow, ← hl, Int.natCast_div, reduce_snd]
    push_cast
    rw [abs_mul_abs_self, sq]
  refine ⟨?_, by unfold varianceOf; omega, by unfold varianceOf; omega⟩
  have hs := reduce_fst sz x y
  unfold variance varianceOf
  generalize ((reduce sz x y).2.natAbs * (reduce sz x y).2.natAbs) >>> sz.l = q at hq ⊢
  omega

/-- The words a reduction delivers hold the exact sums (41_statistics R125). -/
theorem delivered_exact {wc hc : SizeCode} {sz : Size} (h : sizeDecode wc hc = some sz) {x y : Nat → Nat → Nat}
    (hx : IsPixels sz x) (hy : IsPixels sz y) :
    ((BitVec.ofNat 32 (reduce sz x y).1).toNat : Int) = sumSquares sz x y ∧
    (BitVec.ofInt 32 (reduce sz x y).2).toInt = sumDiffs sz x y ∧
    ((BitVec.ofNat 32 (variance sz (reduce sz x y).1 (reduce sz x y).2)).toNat : Int) = varianceOf sz x y := by
  obtain ⟨h0, h1, h2⟩ := sums_bounded h hx hy
  have hs := reduce_fst sz x y
  obtain ⟨hv, hv0, hv1⟩ := variance_eq h x y
  rw [abs_le] at h2
  refine ⟨?_, ?_, ?_⟩
  · rw [BitVec.toNat_ofNat, Nat.mod_eq_of_lt (by omega), hs]
  · rw [reduce_snd, BitVec.toInt_ofInt, Int.bmod_eq_of_le] <;> omega
  · rw [BitVec.toNat_ofNat, Nat.mod_eq_of_lt (by omega), hv]

end Sys2Proof.Machine
end

