-- ==== Sys2Proof/Laws/Interpolation.lean ====
section
/-!
SUPPORT. The interpolator as plain division (42_interpolation R141, R143, R147): the range of a sample (R142), the clamp
that never acts (R144), phase 0 (R145); and what storing a block does to pixel memory.
-/

namespace Sys2Proof.Machine

theorem filterTap_filt (p : Phase) (s0 s1 : Nat) : filterTap (filt p) s0 s1 = tapSample p s0 s1 := by
  simp [filterTap, filt, tapSample, Nat.shiftRight_eq_div_pow]

/-- A filtered sample lies between any bounds of the two samples it is made of (42_interpolation R142). -/
theorem tapSample_between (p : Phase) {s0 s1 lo hi : Nat} (h0 : lo ≤ s0) (h1 : lo ≤ s1) (h2 : s0 ≤ hi)
    (h3 : s1 ≤ hi) : lo ≤ tapSample p s0 s1 ∧ tapSample p s0 s1 ≤ hi := by
  have hp := p.isLt
  obtain ⟨k, hk⟩ : ∃ k, k = 16 * p.toNat := ⟨_, rfl⟩
  obtain ⟨j, hj⟩ : ∃ j, j + k = 128 := ⟨128 - k, by omega⟩
  have e : 128 - 16 * p.toNat = j := by omega
  have l0 : lo * j ≤ s0 * j := Nat.mul_le_mul_right _ h0
  have l1 : lo * k ≤ s1 * k := Nat.mul_le_mul_right _ h1
  have u0 : s0 * j ≤ hi * j := Nat.mul_le_mul_right _ h2
  have u1 : s1 * k ≤ hi * k := Nat.mul_le_mul_right _ h3
  have el : lo * j + lo * k = lo * 128 := by rw [← Nat.mul_add, hj]
  have eh : hi * j + hi * k = hi * 128 := by rw [← Nat.mul_add, hj]
  unfold tapSample
  rw [e, ← hk]
  omega

/-- At phase 0 a pass is the identity (42_interpolation R145). -/
@[simp] theorem tapSample_zero (s0 s1 : Nat) : tapSample 0 s0 s1 = s0 := by
  simp [tapSample]; omega

/-- The clamp never changes a value (42_interpolation R144). -/
theorem interpolate_eq {src : Nat → Nat → Nat} (h : ∀ r c, src r c ≤ 255) (xp yp : Phase) (r c : Nat) :
    interpolate xp yp src r c = sampleAt xp yp src r c := by
  have hT : ∀ r, tapSample xp (src r c) (src r (c + 1)) ≤ 255 := fun r =>
    (tapSample_between xp (Nat.zero_le _) (Nat.zero_le _) (h r c) (h r (c + 1))).2
  have hP := (tapSample_between yp (Nat.zero_le _) (Nat.zero_le _) (hT r) (hT (r + 1))).2
  simp only [interpolate, vpass, hpass, filterTap_filt]
  exact Nat.min_eq_left hP

theorem sampleAt_le {src : Nat → Nat → Nat} (h : ∀ r c, src r c ≤ 255) (xp yp : Phase) (r c : Nat) :
    sampleAt xp yp src r c ≤ 255 := by
  have hT : ∀ r, tapSample xp (src r c) (src r (c + 1)) ≤ 255 := fun r =>
    (tapSample_between xp (Nat.zero_le _) (Nat.zero_le _) (h r c) (h r (c + 1))).2
  exact (tapSample_between yp (Nat.zero_le _) (Nat.zero_le _) (hT r) (hT (r + 1))).2

/-! ## The buffers -/

@[simp] theorem setT_regs (sz : Size) (xp : Phase) (s : State) : (setT sz xp s).regs = s.regs := rfl
@[simp] theorem setT_latch (sz : Size) (xp : Phase) (s : State) : (setT sz xp s).latch = s.latch := rfl
@[simp] theorem setT_rst (sz : Size) (xp : Phase) (s : State) : (setT sz xp s).rst = s.rst := rfl
@[simp] theorem setT_mem (sz : Size) (xp : Phase) (s : State) : (setT sz xp s).mem = s.mem := rfl
@[simp] theorem setT_platform (sz : Size) (xp : Phase) (s : State) : (setT sz xp s).platform = s.platform := rfl
@[simp] theorem setT_inputs (sz : Size) (xp : Phase) (s : State) : (setT sz xp s).inputs = s.inputs := rfl
@[simp] theorem setT_responses (sz : Size) (xp : Phase) (s : State) : (setT sz xp s).responses = s.responses := rfl
@[simp] theorem setT_draws (sz : Size) (xp : Phase) (s : State) : (setT sz xp s).draws = s.draws := rfl

@[simp] theorem discardBuffers_regs (s : State) : (discardBuffers s).regs = s.regs := rfl
@[simp] theorem discardBuffers_latch (s : State) : (discardBuffers s).latch = s.latch := rfl
@[simp] theorem discardBuffers_rst (s : State) : (discardBuffers s).rst = s.rst := rfl
@[simp] theorem discardBuffers_mem (s : State) : (discardBuffers s).mem = s.mem := rfl
@[simp] theorem discardBuffers_platform (s : State) : (discardBuffers s).platform = s.platform := rfl
@[simp] theorem discardBuffers_inputs (s : State) : (discardBuffers s).inputs = s.inputs := rfl
@[simp] theorem discardBuffers_responses (s : State) : (discardBuffers s).responses = s.responses := rfl
@[simp] theorem discardBuffers_draws (s : State) : (discardBuffers s).draws = s.draws := rfl

/-- After a command neither buffer exists (10_state R51, R52). -/
@[simp] theorem discardBuffers_hidden (s : State) :
    (discardBuffers s).hidden = { s.hidden with t := [], x := [] } := rfl

/-- A buffer gives back what was tabulated into it, where its elements are wide enough. -/
theorem elemAt_tabulate {n h w r c : Nat} {f : Nat → Nat → Nat} (hr : r < h) (hc : c < w) (hf : f r c < 2 ^ n) :
    elemAt (tabulate n h w f) r c = f r c := by
  simp [elemAt, tabulate, hr, hc, Nat.mod_eq_of_lt hf]

/-- A sample of the horizontal pass is 8 bits wide (42_interpolation R142). -/
theorem hpass_le {src : Nat → Nat → Nat} (h : ∀ r c, src r c ≤ 255) (xp : Phase) (r c : Nat) :
    hpass xp src r c ≤ 255 := by
  rw [hpass, filterTap_filt]
  exact (tapSample_between xp (Nat.zero_le _) (Nat.zero_le _) (h r c) (h r (c + 1))).2

/-- The intermediate buffer holds the samples of the horizontal pass exactly (10_state R51). -/
theorem elemAt_setT {sz : Size} {xp : Phase} {s : State} {r c : Nat} (hr : r < sz.h + 1) (hc : c < sz.w) :
    elemAt (setT sz xp s).hidden.t r c = hpass xp (pix s.mem s.latch.viewA) r c :=
  elemAt_tabulate hr hc (Nat.lt_of_le_of_lt (hpass_le (fun _ _ => pix_le ..) xp r c) (by decide))

/-- The vertical pass over the intermediate buffer is the interpolated block (42_interpolation R148). -/
theorem verticalPass_setT {sz : Size} {xp yp : Phase} {s : State} {r c : Nat} (hr : r < sz.h) (hc : c < sz.w) :
    verticalPass yp (setT sz xp s) r c = interpolate xp yp (pix s.mem s.latch.viewA) r c := by
  simp only [verticalPass, interpolate, vpass]
  rw [elemAt_setT (by omega) hc, elemAt_setT (by omega) hc]

theorem averageWith_setT {sz : Size} {xp yp : Phase} {s : State} (snd : Nat → Nat → Nat) {r c : Nat} (hr : r < sz.h)
    (hc : c < sz.w) :
    averageWith (verticalPass yp (setT sz xp s)) snd r c =
      interpolateAvg xp yp (pix s.mem s.latch.viewA) snd r c := by
  simp only [averageWith, interpolateAvg, verticalPass_setT hr hc]

theorem interpolateAvg_eq {src : Nat → Nat → Nat} (h : ∀ r c, src r c ≤ 255) (snd : Nat → Nat → Nat)
    (xp yp : Phase) (r c : Nat) : interpolateAvg xp yp src snd r c = averagedAt xp yp src snd r c := by
  simp [interpolateAvg, averageWith, avg2, averagedAt, interpolate_eq h, Nat.shiftRight_eq_div_pow]

theorem averagedAt_le {src snd : Nat → Nat → Nat} (h : ∀ r c, src r c ≤ 255) (h' : ∀ r c, snd r c ≤ 255)
    (xp yp : Phase) (r c : Nat) : averagedAt xp yp src snd r c ≤ 255 := by
  have := sampleAt_le h xp yp r c
  have := h' r c
  unfold averagedAt
  omega

/-! ## Storing a block -/

/-- Storing a block depends on the samples of its positions only. -/
theorem putBlock_congr (v : View) {f g : Nat → Nat → Nat} (ps : List (Nat × Nat)) (m : Memory)
    (h : ∀ p ∈ ps, f p.1 p.2 = g p.1 p.2) : putBlock v f ps m = putBlock v g ps m := by
  induction ps generalizing m with
  | nil => rfl
  | cons p rest ih =>
    simp only [putBlock, h p (List.mem_cons_self ..)]
    exact ih _ fun q hq => h q (List.mem_cons_of_mem _ hq)

/-- Storing a block leaves every address outside it as it was. -/
theorem putBlock_read_other (v : View) (f : Nat → Nat → Nat) (ps : List (Nat × Nat)) (m : Memory) {a : Nat}
    (h : ∀ p ∈ ps, a ≠ pixAddr v p.1 p.2) : Memory.read (putBlock v f ps m) a = Memory.read m a := by
  induction ps generalizing m with
  | nil => rfl
  | cons p rest ih =>
    rw [putBlock, ih _ fun q hq => h q (List.mem_cons_of_mem _ hq),
      Memory.read_write_other _ _ (h p (List.mem_cons_self ..))]

/-- Storing a block whose positions have addresses of their own puts each sample at its own. -/
theorem putBlock_read (v : View) (f : Nat → Nat → Nat) (ps : List (Nat × Nat)) (m : Memory)
    (hinj : ∀ p ∈ ps, ∀ q ∈ ps, pixAddr v p.1 p.2 = pixAddr v q.1 q.2 → p = q) {p : Nat × Nat} (hp : p ∈ ps) :
    Memory.read (putBlock v f ps m) (pixAddr v p.1 p.2) = some (BitVec.ofNat 8 (f p.1 p.2)) := by
  induction ps generalizing m with
  | nil => cases hp
  | cons q rest ih =>
    rw [putBlock]
    have hrest : ∀ p ∈ rest, ∀ q ∈ rest, pixAddr v p.1 p.2 = pixAddr v q.1 q.2 → p = q := fun a ha b hb =>
      hinj a (List.mem_cons_of_mem _ ha) b (List.mem_cons_of_mem _ hb)
    by_cases hm : p ∈ rest
    · exact ih _ hrest hm
    · have hpq : p = q := (List.mem_cons.mp hp).resolve_right hm
      subst hpq
      rw [putBlock_read_other, Memory.read_write_same]
      intro r hr heq
      exact hm (hinj p (List.mem_cons_self ..) r (List.mem_cons_of_mem _ hr) heq ▸ hr)

theorem putBlock_wf (v : View) (f : Nat → Nat → Nat) (ps : List (Nat × Nat)) (m : Memory) (h : Memory.wf m)
    (ha : ∀ p ∈ ps, pixAddr v p.1 p.2 < 2 ^ 32) : Memory.wf (putBlock v f ps m) := by
  induction ps generalizing m with
  | nil => exact h
  | cons p rest ih =>
    rw [putBlock]
    exact ih _ (Memory.wf_write h (ha p (List.mem_cons_self ..)) _) fun q hq => ha q (List.mem_cons_of_mem _ hq)

/-- With a stride of at least the width, the positions of a block have addresses of their own (20_memory R70). -/
theorem pixAddr_inj {v : View} {w r c r' c' : Nat} (hs : w ≤ v.stride.toNat) (hc : c < w) (hc' : c' < w)
    (h : pixAddr v r c = pixAddr v r' c') : r = r' ∧ c = c' := by
  unfold pixAddr at h
  have key : ∀ a b x y : Nat, x < w → y < w → a < b →
      a * v.stride.toNat + x ≠ b * v.stride.toNat + y := by
    intro a b x y hx hy hab he
    have : (a + 1) * v.stride.toNat ≤ b * v.stride.toNat := Nat.mul_le_mul_right _ hab
    rw [Nat.add_mul, Nat.one_mul] at this
    omega
  rcases Nat.lt_trichotomy r r' with hlt | rfl | hlt
  · exact absurd (by omega) (key r r' c c' hc hc' hlt)
  · exact ⟨rfl, by omega⟩
  · exact absurd (by omega) (key r' r c' c hc' hc hlt)

/-- After a block of 8-bit samples has been stored, each of its positions reads as its sample. -/
theorem pix_putBlock (v : View) (f : Nat → Nat → Nat) (m : Memory) {h w r c : Nat} (hs : w ≤ v.stride.toNat)
    (hr : r < h) (hc : c < w) (hf : f r c ≤ 255) : pix (putBlock v f (coords h w) m) v r c = f r c := by
  have := putBlock_read v f (coords h w) m (fun p hp q hq he => by
    obtain ⟨p1, p2⟩ := p
    obtain ⟨q1, q2⟩ := q
    obtain ⟨rfl, rfl⟩ := pixAddr_inj hs (mem_coords.mp hp).2 (mem_coords.mp hq).2 he
    rfl) (p := (r, c)) (mem_coords.mpr ⟨hr, hc⟩)
  simp only [pix, Memory.byteAt, this, Option.getD_some, BitVec.toNat_ofNat]
  omega

end Sys2Proof.Machine
end

