-- ==== Sys2Proof/Laws/Exec.lean ====
section
/-!
SUPPORT. The six commands as one: each is `runCommand` around its own effect, and what each effect leaves in every field.
-/

namespace Sys2Proof.Machine

/-- INTERP stores the interpolated block (42_interpolation R149). -/
theorem interpBody_eq (xp yp : Phase) (sz : Size) (s : State) :
    interpBody xp yp sz s =
      completeOk {} (discardBuffers (storeDest sz (interpolate xp yp (pix s.mem s.latch.viewA)) (setT sz xp s))) := by
  simp only [interpBody, storeDest]
  rw [putBlock_congr _ _ _ fun p hp => verticalPass_setT (mem_coords.mp hp).1 (mem_coords.mp hp).2]

/-- INTERP_AVG stores the averaged block (42_interpolation R150). -/
theorem interpAvgBody_eq (xp yp : Phase) (sz : Size) (s : State) :
    interpAvgBody xp yp sz s =
      completeOk {} (discardBuffers (storeDest sz
        (interpolateAvg xp yp (pix s.mem s.latch.viewA) (pix s.mem s.latch.viewS)) (setT sz xp s))) := by
  simp only [interpAvgBody, storeDest]
  rw [putBlock_congr _ _ _ fun p hp => averageWith_setT _ (mem_coords.mp hp).1 (mem_coords.mp hp).2]

/-- A sub-pixel statistics command reduces whatever block of 8-bit samples its synthesized block agrees with. -/
theorem subpixBody_eq {sz : Size} {x y : Nat → Nat → Nat} (s : State) (hx : ∀ r < sz.h, ∀ c < sz.w, x r c = y r c)
    (hy : IsPixels sz y) :
    subpixBody sz x s =
      completeOk (varResults sz (reduce sz y (pix s.mem s.latch.viewB)))
        (discardBuffers (setAccs (reduce sz y (pix s.mem s.latch.viewB)) s)) := by
  have h : reduce sz (elemAt (setX sz x s).hidden.x) (pix s.mem s.latch.viewB) =
      reduce sz y (pix s.mem s.latch.viewB) :=
    reduce_congr (fun r hr c hc => (elemAt_tabulate hr hc (by rw [hx r hr c hc]; have := hy r hr c hc; omega)).trans
      (hx r hr c hc)) fun _ _ _ _ => rfl
  change completeOk (varResults sz (reduce sz (elemAt (setX sz x s).hidden.x) (pix s.mem s.latch.viewB)))
    (discardBuffers (setAccs (reduce sz (elemAt (setX sz x s).hidden.x) (pix s.mem s.latch.viewB)) (setX sz x s))) = _
  rw [h]
  rfl

theorem subpixVarBody_eq (xp yp : Phase) (sz : Size) (s : State) :
    subpixVarBody xp yp sz s =
      let r := reduce sz (interpolate xp yp (pix s.mem s.latch.viewA)) (pix s.mem s.latch.viewB)
      completeOk (varResults sz r) (discardBuffers (setAccs r s)) :=
  subpixBody_eq _ (fun _ hr _ hc => verticalPass_setT hr hc) fun r _ c _ => by
    rw [interpolate_eq fun _ _ => pix_le ..]
    exact sampleAt_le (fun _ _ => pix_le ..) ..

theorem subpixAvgVarBody_eq (xp yp : Phase) (sz : Size) (s : State) :
    subpixAvgVarBody xp yp sz s =
      let r := reduce sz (interpolateAvg xp yp (pix s.mem s.latch.viewA) (pix s.mem s.latch.viewS))
        (pix s.mem s.latch.viewB)
      completeOk (varResults sz r) (discardBuffers (setAccs r s)) :=
  subpixBody_eq _ (fun _ hr _ hc => averageWith_setT _ hr hc) fun r _ c _ => by
    rw [interpolateAvg_eq fun _ _ => pix_le ..]
    exact averagedAt_le (fun _ _ => pix_le ..) (fun _ _ => pix_le ..) ..

/-- The effect of a command at a clean launch. -/
def commandBody (i : Instr) : Size → State → State :=
  match i with
  | .sse _ _ => sseBody
  | .var _ _ => varBody
  | .interp _ _ xp yp => interpBody xp yp
  | .interpAvg _ _ xp yp => interpAvgBody xp yp
  | .subpixVar _ _ xp yp => subpixVarBody xp yp
  | .subpixAvgVar _ _ xp yp => subpixAvgVarBody xp yp

theorem exec_eq (i : Instr) (s : State) : exec i s = runCommand i (commandBody i) s := by
  cases i <;> rfl

/-- At a clean launch a command has its own effect (70_reset_and_hazards R256). -/
theorem exec_clean {i : Instr} {sz : Size} {s : State} (h : CleanLaunch i sz s) :
    exec i s = .next (commandBody i sz s) := by
  rw [exec_eq, runCommand_clean _ h]

/-- The result registers a command writes at a successful completion (10_state R45). -/
def resultsOf (i : Instr) (sz : Size) (s : State) : ResultWrites :=
  let a := pix s.mem s.latch.viewA
  let b := pix s.mem s.latch.viewB
  let p := pix s.mem s.latch.viewS
  match i with
  | .sse _ _ => sseResults (reduce sz a b)
  | .var _ _ => varResults sz (reduce sz a b)
  | .interp _ _ _ _ => {}
  | .interpAvg _ _ _ _ => {}
  | .subpixVar _ _ xp yp => varResults sz (reduce sz (interpolate xp yp a) b)
  | .subpixAvgVar _ _ xp yp => varResults sz (reduce sz (interpolateAvg xp yp a p) b)

/-- The block a command stores to the window of D. -/
def storedBlock (i : Instr) (s : State) : Option (Nat → Nat → Nat) :=
  match i with
  | .sse _ _ => none
  | .var _ _ => none
  | .interp _ _ xp yp => some (interpolate xp yp (pix s.mem s.latch.viewA))
  | .interpAvg _ _ xp yp =>
    some (interpolateAvg xp yp (pix s.mem s.latch.viewA) (pix s.mem s.latch.viewS))
  | .subpixVar _ _ _ _ => none
  | .subpixAvgVar _ _ _ _ => none

/-- Pixel memory after a command's own effect. -/
def memAfter (i : Instr) (sz : Size) (s : State) : Memory :=
  match storedBlock i s with
  | none => s.mem
  | some f => putBlock s.latch.viewD f (coords sz.h sz.w) s.mem

/-- Everything a command's own effect does: the results delivered with the completion, the destination window filled, and
the hidden state. -/
theorem commandBody_eq (i : Instr) (sz : Size) (s : State) :
    commandBody i sz s = { completeOk (resultsOf i sz s) s with
      mem := memAfter i sz s, hidden := (commandBody i sz s).hidden } := by
  cases i with
  | sse => rfl
  | var => rfl
  | interp _ _ xp yp => rw [commandBody, interpBody_eq]; rfl
  | interpAvg _ _ xp yp => rw [commandBody, interpAvgBody_eq]; rfl
  | subpixVar _ _ xp yp => rw [commandBody, subpixVarBody_eq]; rfl
  | subpixAvgVar _ _ xp yp => rw [commandBody, subpixAvgVarBody_eq]; rfl

theorem commandBody_regs (i : Instr) (sz : Size) (s : State) :
    (commandBody i sz s).regs = (completeOk (resultsOf i sz s) s).regs := by
  rw [commandBody_eq]

theorem commandBody_mem (i : Instr) (sz : Size) (s : State) : (commandBody i sz s).mem = memAfter i sz s := by
  rw [commandBody_eq]

/-- A command's own effect leaves no buffer that was not there before it (10_state R51, R52). -/
theorem commandBody_buffers {i : Instr} {sz : Size} {s : State} (h : s.hidden.t = [] ∧ s.hidden.x = []) :
    (commandBody i sz s).hidden.t = [] ∧ (commandBody i sz s).hidden.x = [] := by
  cases i <;> first | exact h | exact ⟨rfl, rfl⟩

/-- A command's own effect keeps the canonical form of pixel memory. -/
theorem commandBody_wf {i : Instr} {sz : Size} {s : State} (hl : LegalConfig i s.latch sz) (h : Memory.wf s.mem) :
    Memory.wf (commandBody i sz s).mem := by
  rw [commandBody_mem]
  unfold memAfter
  cases hb : storedBlock i s with
  | none => exact h
  | some f =>
    refine putBlock_wf _ _ _ _ h fun p hp => ?_
    obtain ⟨hr, hc⟩ := mem_coords.mp (show (p.1, p.2) ∈ coords sz.h sz.w from hp)
    refine hl.access_lt (mem_accessAddrs.mpr ⟨⟨s.latch.viewD, .dest⟩, ?_, mem_addrs.mpr ⟨p.1, hr, p.2, hc, rfl⟩⟩)
    cases i <;> simp [storedBlock] at hb <;> simp [usedViews]

/-- A command's own effect leaves every byte outside its destination window as it was. -/
theorem commandBody_read_other {i : Instr} {sz : Size} {s : State} {a : Nat} (h : a ∉ destAddrs i s.latch sz) :
    Memory.read (commandBody i sz s).mem a = Memory.read s.mem a := by
  rw [commandBody_mem]
  unfold memAfter
  cases hb : storedBlock i s with
  | none => rfl
  | some f =>
    refine putBlock_read_other _ _ _ _ fun p hp heq => h ?_
    obtain ⟨hr, hc⟩ := mem_coords.mp (show (p.1, p.2) ∈ coords sz.h sz.w from hp)
    refine mem_destAddrs.mpr ⟨⟨s.latch.viewD, .dest⟩, ?_, rfl, mem_addrs.mpr ⟨p.1, hr, p.2, hc, heq⟩⟩
    cases i <;> simp [storedBlock] at hb <;> simp [usedViews]

/-- Every next state of a command (60_exceptions R202 to R206): an error of its checks, a bus error with drawn destination
bytes, a platform that never answers, or its own effect at a clean launch. -/
theorem exec_next {i : Instr} {s t : State} (h : exec i s = .next t) :
    (∃ e, (e = .badSize ∨ e = .badStride ∨ e = .addrWrap) ∧ t = completeErr e 0 s) ∨
    (∃ sz a, LegalConfig i s.latch sz ∧ a ∈ accessAddrs i s.latch sz ∧
      t = completeErr .busErr (BitVec.ofNat 32 a)
        (drawBytes (destAddrs i s.latch sz) (s.setDraws (s.draws + 1)))) ∨
    (t = s ∧ s.platform.busErrResponse = .hang ∧ ∃ sz, LegalConfig i s.latch sz ∧
      ∃ a ∈ accessAddrs i s.latch sz, s.platform.kindOf a = some .unbacked) ∨
    (∃ sz, CleanLaunch i sz s ∧ t = commandBody i sz s) := by
  rw [exec_eq] at h
  rcases runCommand_next h with ⟨e, he, rfl⟩ | ⟨sz, as, hl, hne, has, rfl⟩ | ⟨sz, hc, rfl⟩
  · exact .inl ⟨e, checkConfig_error_cases he, rfl⟩
  · rcases busResponse_cases i sz s hne with ⟨hh, he⟩ | ⟨-, a, ha, he⟩
    · obtain ⟨a, ha⟩ := List.exists_mem_of_ne_nil _ hne
      exact .inr (.inr (.inl ⟨he, hh, sz, hl, a, has a ha⟩))
    · exact .inr (.inl ⟨sz, a, hl, (has a ha).1, he⟩)
  · exact .inr (.inr (.inr ⟨sz, hc, rfl⟩))

end Sys2Proof.Machine
end

