-- ==== Sys2Proof/Laws/Host.lean ====
section
/-!
SUPPORT. What a step can do, said once: whose turn it is, what each access of the host can leave, and what a reset
leaves.
-/

namespace Sys2Proof.Machine

/-- The register offsets are the sixteen of 10_state R22, each below 0x40 and a multiple of 4. -/
theorem regAt_some {off : Nat} {g : Reg} (h : regAt off = some g) : off % 4 = 0 ∧ off < 0x40 := by
  unfold regAt at h
  cases hf : regTable.find? (fun e => decide (e.1 = off)) with
  | none => simp [hf] at h
  | some e =>
    have hm := List.mem_of_find?_eq_some hf
    have he : e.1 = off := by simpa using List.find?_some hf
    have hall : ∀ e ∈ regTable, e.1 % 4 = 0 ∧ e.1 < 0x40 := by decide
    exact he ▸ hall e hm

@[simp] theorem wr_addr_sub (b x : Word) : b + x - b = x := by
  rw [BitVec.add_comm, BitVec.add_sub_cancel]

/-- The register a 32-bit access at REG_BASE plus an offset reaches. -/
theorem regAccess_offset (p : Platform) {off : Nat} (h : off < 2 ^ 32) :
    regAccess p (p.regBase + BitVec.ofNat 32 off) 32 = regAt off := by
  have e : (p.regBase + BitVec.ofNat 32 off - p.regBase).toNat = off := by
    rw [wr_addr_sub, BitVec.toNat_ofNat, Nat.mod_eq_of_lt h]
  rw [regAccess, if_pos rfl, e]

/-! ## Reset -/

@[simp] theorem inFlight_setInputs (s : State) (is : List Input) : inFlight (s.setInputs is) = inFlight s := rfl

/-- An abort changes pixel memory and the counter only, and pixel memory only in the destination window of the command it
ends (70_reset_and_hazards R243). -/
theorem abortDraws_spec (s : State) :
    abortDraws s = { s with mem := (abortDraws s).mem, draws := (abortDraws s).draws } ∧
    (∀ a, (∀ i sz, inFlight s = some (i, sz) → a ∉ destAddrs i s.latch sz) →
      Memory.read (abortDraws s).mem a = Memory.read s.mem a) ∧
    (Memory.wf s.mem → Memory.wf (abortDraws s).mem) := by
  unfold abortDraws
  cases hf : inFlight s with
  | none => exact ⟨rfl, fun _ _ => rfl, id⟩
  | some p =>
    obtain ⟨i, sz⟩ := p
    have hl := (inFlight_eq_some_iff.mp hf).2.2
    refine ⟨?_, fun a h => drawBytes_read_other _ _ (h i sz rfl), fun h => ?_⟩
    · have h := drawBytes_eq (destAddrs i s.latch sz) s
      dsimp only
      generalize drawBytes (destAddrs i s.latch sz) s = t at h ⊢
      rw [h]
    exact drawBytes_wf _ _ h fun a ha => hl.access_lt (mem_accessAddrs_of_dest ha)

theorem abortDraws_idle {s : State} (h : s.regs.busy = false) : abortDraws s = s := by
  simp [abortDraws, inFlight_idle h]

theorem abortUnknown_false_iff {s : State} :
    abortUnknown s = false ↔
      ∀ i sz, inFlight s = some (i, sz) → ∀ a ∈ accessAddrs i s.latch sz, s.platform.kindOf a ≠ some .device := by
  unfold abortUnknown
  cases hf : inFlight s with
  | none => simp
  | some p =>
    obtain ⟨i, sz⟩ := p
    have key : (accessAddrs i s.latch sz).any (fun a => decide (s.platform.kindOf a = some .device)) = false ↔
        ∀ a ∈ accessAddrs i s.latch sz, s.platform.kindOf a ≠ some .device := by simp
    rw [key]
    constructor
    · rintro h _ _ ⟨⟩
      exact h
    · intro h
      exact h i sz rfl

/-- A soft reset, when it is not refused: every register and the hidden state reset, the command in flight aborted
(70_reset_and_hazards R242). -/
theorem softReset_next {s t : State} (h : softReset s = .next t) : t = resetBlock (abortDraws s) := by
  unfold softReset at h
  split at h
  · cases h
  · cases h; rfl

/-! ## The register port -/

/-- A configuration write is ignored while BUSY (10_state R39). -/
theorem writeConfig_next {r : Regs} {s t : State}
    (h : (.next (writeConfig r s) : Host.Outcome State Fault Refusal) = .next t) :
    t = s ∨ (s.regs.busy = false ∧ t = s.setRegs r) := by
  cases h
  unfold writeConfig
  split
  · exact .inl rfl
  · rename_i hb
    exact .inr ⟨by simpa using hb, rfl⟩

/-- What a register write can leave: nothing changed, an acknowledgement, a new configuration while IDLE, a new IRQ_EN, a
started command while IDLE, or a reset (10_state R24, R27, R33, R39). -/
theorem writeReg_next {g : Reg} {v : Word} {s t : State} (h : writeReg g v s = .next t) :
    t = s ∨ t = acknowledge v s ∨
    (s.regs.busy = false ∧ ∃ c a b p d, t = s.setRegs { s.regs with cmd := c, viewA := a, viewB := b, viewS := p, viewD := d }) ∨
    (t = s.setRegs { s.regs with irqEn := v.getLsbD 1 }) ∨
    (g = .ctrl ∧ v.getLsbD 0 = true ∧ v.getLsbD 2 = false ∧ s.regs.busy = false ∧
      t = acceptStart (s.setRegs { s.regs with irqEn := v.getLsbD 1 })) ∨
    (g = .ctrl ∧ v.getLsbD 2 = true ∧ t = resetBlock (abortDraws s)) := by
  cases g with
  | ctrl =>
    simp only [writeReg, writeCtrl] at h
    split at h
    · exact .inr (.inr (.inr (.inr (.inr ⟨rfl, ‹_›, softReset_next h⟩))))
    · rename_i h2
      split at h
      · rename_i h0
        simp only [Bool.and_eq_true, Bool.not_eq_true'] at h0
        cases h
        exact .inr (.inr (.inr (.inr (.inl ⟨rfl, h0.1, by simpa using h2, h0.2, rfl⟩))))
      · cases h
        exact .inr (.inr (.inr (.inl rfl)))
  | status => cases h; exact .inr (.inl rfl)
  | cmd => exact (writeConfig_next h).imp id fun ⟨hb, e⟩ => .inr (.inl ⟨hb, _, _, _, _, _, e⟩)
  | aAddr => exact (writeConfig_next h).imp id fun ⟨hb, e⟩ => .inr (.inl ⟨hb, _, _, _, _, _, e⟩)
  | aStride => exact (writeConfig_next h).imp id fun ⟨hb, e⟩ => .inr (.inl ⟨hb, _, _, _, _, _, e⟩)
  | bAddr => exact (writeConfig_next h).imp id fun ⟨hb, e⟩ => .inr (.inl ⟨hb, _, _, _, _, _, e⟩)
  | bStride => exact (writeConfig_next h).imp id fun ⟨hb, e⟩ => .inr (.inl ⟨hb, _, _, _, _, _, e⟩)
  | sAddr => exact (writeConfig_next h).imp id fun ⟨hb, e⟩ => .inr (.inl ⟨hb, _, _, _, _, _, e⟩)
  | sStride => exact (writeConfig_next h).imp id fun ⟨hb, e⟩ => .inr (.inl ⟨hb, _, _, _, _, _, e⟩)
  | dAddr => exact (writeConfig_next h).imp id fun ⟨hb, e⟩ => .inr (.inl ⟨hb, _, _, _, _, _, e⟩)
  | dStride => exact (writeConfig_next h).imp id fun ⟨hb, e⟩ => .inr (.inl ⟨hb, _, _, _, _, _, e⟩)
  | id => cases h; exact .inl rfl
  | resSse => cases h; exact .inl rfl
  | resVar => cases h; exact .inl rfl
  | resSum => cases h; exact .inl rfl
  | errAddr => cases h; exact .inl rfl

/-- What an access of the host can leave. -/
theorem hostMove_next {m : HostMove} {s t : State} (h : hostMove m s = .next t) :
    (∃ addr v g, m = .regWrite addr 32 v ∧ s.rst = false ∧ regAt (addr - s.platform.regBase).toNat = some g ∧
      writeReg g v s = .next t) ∨
    (∃ x n, t = (s.respond x).setDraws n) ∨
    (∃ addr v, m = .memStore addr v ∧ t = s.setMem (Memory.write s.mem addr.toNat v)) := by
  cases m with
  | regWrite addr width v =>
    simp only [hostMove, hostRegWrite] at h
    split at h
    · cases h
    · rename_i hr
      split at h
      · cases h
      · rename_i g hg
        unfold regAccess at hg
        split at hg
        · subst_vars
          exact .inl ⟨addr, v, g, rfl, by simpa using hr, hg, h⟩
        · cases hg
  | regRead addr width =>
    simp only [hostMove, hostRegRead] at h
    split at h
    · cases h
    · split at h
      · cases h
      · cases h
        exact .inr (.inl ⟨_, s.draws, rfl⟩)
  | memStore addr v =>
    simp only [hostMove, hostStore] at h
    split at h
    · cases h
    · split at h
      · cases h
        exact .inr (.inr ⟨addr, v, rfl, rfl⟩)
      · cases h
  | memLoad addr =>
    simp only [hostMove, hostLoad] at h
    split at h
    · cases h; exact .inr (.inl ⟨_, s.draws + 1, rfl⟩)
    · split at h
      · cases h; exact .inr (.inl ⟨_, s.draws, rfl⟩)
      · cases h

/-! ## A step -/

/-- Whose turn it is, said once: the engine's, the host's access (or the poll it waits with while `rst` is asserted), or the
reset input's. -/
theorem takeTurn_cases (s : State) : ∃ is,
    (s.EngineMoves ∧ takeTurn s = (.engine, s.setInputs is)) ∨
    (∃ m, s.inputs = .host m :: is ∧ takeTurn s = (.host m, s.setInputs is)) ∨
    (s.rst = true ∧ ∃ addr, takeTurn s = (.host (.regRead addr 32), s.setInputs is)) ∨
    (s.inputs = .assertRst :: is ∧ takeTurn s = (.assertRst, s.setInputs is)) ∨
    (s.inputs = .releaseRst :: is ∧ takeTurn s = (.releaseRst, s.setInputs is)) := by
  unfold takeTurn
  split
  · exact ⟨s.inputs, .inl ⟨.inl ‹_›, rfl⟩⟩
  · rename_i rest h
    exact ⟨rest, .inl ⟨.inr (.inl (by rw [h]; rfl)), rfl⟩⟩
  · rename_i rest h
    cases hr : s.rst with
    | true => exact ⟨rest, .inr (.inr (.inl ⟨rfl, _, rfl⟩))⟩
    | false =>
      have hm : s.EngineMoves := .inr (.inr ⟨by rw [h]; rfl, hr⟩)
      cases s.regs.busy with
      | true => exact ⟨s.inputs, .inl ⟨hm, rfl⟩⟩
      | false => exact ⟨rest, .inl ⟨hm, rfl⟩⟩
  · exact ⟨_, .inr (.inl ⟨_, ‹_›, rfl⟩)⟩
  · exact ⟨_, .inr (.inr (.inr (.inl ⟨‹_›, rfl⟩)))⟩
  · exact ⟨_, .inr (.inr (.inr (.inr ⟨‹_›, rfl⟩)))⟩

/-- Everything a step can do, in terms of the state `s'` with the turn taken from the pending moves. -/
theorem step_next {s t : State} (h : step s = .next t) :
    ∃ (s' : State) (is : List Input), s' = s.setInputs is ∧
      ((s.EngineMoves ∧
         ((s'.regs.busy = false ∧ t = s') ∨
          (s'.regs.busy = true ∧ ∃ e, decodeWord s'.latch.cmd = .error e ∧ t = rejectWord e s') ∨
          (s'.regs.busy = true ∧ ∃ i, decodeWord s'.latch.cmd = .ok i ∧ exec i s' = .next t))) ∨
       (∃ m, s.inputs = .host m :: is ∧ hostMove m s' = .next t) ∨
       (s.inputs = .assertRst :: is ∧ t = (resetBlock (abortDraws s')).setRst true) ∨
       (s.inputs = .releaseRst :: is ∧ t = releaseReset s')) := by
  obtain ⟨is, hT | ⟨m, hm, hT⟩ | ⟨hr, addr, hT⟩ | ⟨hi, hT⟩ | ⟨hi, hT⟩⟩ := takeTurn_cases s <;>
    refine ⟨s.setInputs is, is, rfl, ?_⟩
  · obtain ⟨hm, hT⟩ := hT
    simp only [step, hT, engineMove] at h
    refine .inl ⟨hm, ?_⟩
    split at h
    · rename_i hb
      split at h
      · rename_i i hd
        exact .inr (.inr ⟨hb, i, hd, h⟩)
      · rename_i e hd
        cases h
        exact .inr (.inl ⟨hb, e, hd, rfl⟩)
    · rename_i hb
      cases h
      exact .inl ⟨by simpa using hb, rfl⟩
  · simp only [step, hT] at h
    exact .inr (.inl ⟨m, hm, h⟩)
  · simp [step, hT, hostMove, hostRegRead, hr] at h
  · simp only [step, hT, assertReset] at h
    split at h
    · cases h
    · cases h
      exact .inr (.inr (.inl ⟨hi, rfl⟩))
  · simp only [step, hT] at h
    cases h
    exact .inr (.inr (.inr ⟨hi, rfl⟩))

end Sys2Proof.Machine
end

