-- ==== Sys2Proof/Laws/PerInstr.lean ====
section
/-!
SUPPORT. The family RowMatch: the word of a command selects its row of spec/opcode_table.json (30_encoding R104), one
lemma a constructor.
-/

namespace Sys2Proof.Laws.RowMatch

/-- The command's word has the table's match bits under the table's mask. -/
def Statement (i : Instr) : Prop := i.row.selects (encode i) = true

theorem sse (wcode hcode : SizeCode) : Statement (.sse wcode hcode) := by
  simp only [Statement, OpcodeRow.selects, beq_iff_eq]
  apply BitVec.eq_of_getLsbD_eq
  intro k hk
  rw [BitVec.getLsbD_and, encode, getLsbD_assembleWord]
  interval_cases k <;> simp [Instr.row, opCode]

theorem var (wcode hcode : SizeCode) : Statement (.var wcode hcode) := by
  simp only [Statement, OpcodeRow.selects, beq_iff_eq]
  apply BitVec.eq_of_getLsbD_eq
  intro k hk
  rw [BitVec.getLsbD_and, encode, getLsbD_assembleWord]
  interval_cases k <;> simp [Instr.row, opCode]

theorem interp (wcode hcode : SizeCode) (xphase yphase : Phase) :
    Statement (.interp wcode hcode xphase yphase) := by
  simp only [Statement, OpcodeRow.selects, beq_iff_eq]
  apply BitVec.eq_of_getLsbD_eq
  intro k hk
  rw [BitVec.getLsbD_and, encode, getLsbD_assembleWord]
  interval_cases k <;> simp [Instr.row, opCode]

theorem interpAvg (wcode hcode : SizeCode) (xphase yphase : Phase) :
    Statement (.interpAvg wcode hcode xphase yphase) := by
  simp only [Statement, OpcodeRow.selects, beq_iff_eq]
  apply BitVec.eq_of_getLsbD_eq
  intro k hk
  rw [BitVec.getLsbD_and, encode, getLsbD_assembleWord]
  interval_cases k <;> simp [Instr.row, opCode]

theorem subpixVar (wcode hcode : SizeCode) (xphase yphase : Phase) :
    Statement (.subpixVar wcode hcode xphase yphase) := by
  simp only [Statement, OpcodeRow.selects, beq_iff_eq]
  apply BitVec.eq_of_getLsbD_eq
  intro k hk
  rw [BitVec.getLsbD_and, encode, getLsbD_assembleWord]
  interval_cases k <;> simp [Instr.row, opCode]

theorem subpixAvgVar (wcode hcode : SizeCode) (xphase yphase : Phase) :
    Statement (.subpixAvgVar wcode hcode xphase yphase) := by
  simp only [Statement, OpcodeRow.selects, beq_iff_eq]
  apply BitVec.eq_of_getLsbD_eq
  intro k hk
  rw [BitVec.getLsbD_and, encode, getLsbD_assembleWord]
  interval_cases k <;> simp [Instr.row, opCode]

end Sys2Proof.Laws.RowMatch
end

