-- ==== Sys2Proof/Tests/Slice0.lean ====
section
/-!
SUPPORT. Tests: expected values of 95_test_vectors and of the rules' own examples, and for every obligation with
hypotheses a concrete case that meets them together.
-/

namespace Sys2Proof.Tests

open Sys2Proof Sys2Proof.Machine

-- One theorem at a time: a check by evaluation waits for everything before it, and in the package as one text many
-- that wait at once would each hold a thread.
set_option Elab.async false

/-! ## Small states -/

/-- A view. -/
def view (a st : Word) : View := { addr := a, stride := st }

/-- The bytes `f r c` of a block, listed row by row. -/
def fill (base stride h w : Nat) (f : Nat → Nat → Nat) : Memory :=
  (coords h w).map fun p => (base + p.1 * stride + p.2, BitVec.ofNat 8 (f p.1 p.2))

/-- The state right after an accepted START of the word `w` with views A, B, S, D over memory `m`, the result registers
holding (9, 9, 3) as in 95_test_vectors 2.7. -/
def started (w : Word) (a b p d : View) (m : Memory) : State :=
  { State.reset with
    regs := { Regs.reset with
      busy := true, cmd := w, viewA := a, viewB := b, viewS := p, viewD := d, resSse := 9, resVar := 9, resSum := 3 }
    latch := { cmd := w, viewA := a, viewB := b, viewS := p, viewD := d }
    mem := m }

/-- The state a step answers; the state it is given where the step stops. -/
def nextOr (d : State) : Host.Outcome State Fault Refusal → State
  | .next t => t
  | .fault _ => d
  | .refused _ => d

/-- What a step answers, as data that can be compared. -/
def answer : Host.Outcome State Fault Refusal → Option State × Option Fault × Option Refusal
  | .next t => (some t, none, none)
  | .fault f => (none, some f, none)
  | .refused r => (none, none, some r)

/-- `answer` loses nothing. -/
theorem answer_inj {o o' : Host.Outcome State Fault Refusal} (h : answer o = answer o') : o = o' := by
  cases o <;> cases o' <;> simp_all [answer]

/-- A step that goes on answers the state `nextOr` names. -/
theorem goesOn_next {d : State} {o : Host.Outcome State Fault Refusal} (h : (answer o).1.isSome = true) :
    o = .next (nextOr d o) := by
  cases o <;> first | rfl | cases h

/-- RES_SSE, RES_VAR and RES_SUM after the engine's move. -/
def results (s : State) : Word × Word × Word :=
  let t := nextOr State.reset (step s)
  (t.regs.resSse, t.regs.resVar, t.regs.resSum)

/-- The bytes at some addresses after the engine's move. -/
def bytesAfter (s : State) (as : List Nat) : List (Option Byte) :=
  as.map fun a => Memory.read (nextOr State.reset (step s)).mem a

/-- STATUS, ERR_ADDR and the result registers after the engine's move. -/
def ending (s : State) : Word × Word × Word × Word × Word :=
  let t := nextOr State.reset (step s)
  (statusWord t.regs, t.regs.errAddr, t.regs.resSse, t.regs.resVar, t.regs.resSum)

/-! ## Well-formed commands and their words -/

/-- Width codes above 4 are ill-formed (30_encoding R98). -/
theorem test_wellFormed_refuses_width : (Instr.sse 5 4).wellFormed = false := by decide

/-- Height codes above 4 are ill-formed (30_encoding R98). -/
theorem test_wellFormed_refuses_height : (Instr.interp 4 7 0 0).wellFormed = false := by decide

/-- A width code two above the height code is ill-formed: 16x4 (30_encoding R98). -/
theorem test_wellFormed_refuses_16x4 : (Instr.var 2 0).wellFormed = false := by decide

/-- A height code two above the width code is ill-formed: 4x16 (30_encoding R98). -/
theorem test_wellFormed_refuses_4x16 : (Instr.subpixVar 0 2 0 0).wellFormed = false := by decide

/-- 64x32 is a size of the catalogue (30_encoding R98). -/
theorem test_wellFormed_accepts_64x32 : (Instr.subpixAvgVar 4 3 7 7).wellFormed = true := by decide

/-- SSE.8x8, VAR.8x8 (95_test_vectors E1, E2), bit by bit: RSVD yyy xxx hhh www oooo. -/
theorem test_decode_statistics :
    decodeWord 0b0000000000000000_000_000_001_001_0001 = .ok (.sse 1 1) ∧
    decodeWord 0b0000000000000000_000_000_001_001_0010 = .ok (.var 1 1) ∧
    decodeWord 0x00000241 = .ok (.sse 4 4) := by decide

/-- INTERP.8x4 4, 0, INTERP_AVG.4x4 4, 4, INTERP.4x4 1, 0 (95_test_vectors E3, E4, E21). -/
theorem test_decode_interpolation :
    decodeWord 0b0000000000000000_000_100_000_001_0011 = .ok (.interp 1 0 4 0) ∧
    decodeWord 0b0000000000000000_100_100_000_000_0100 = .ok (.interpAvg 0 0 4 4) ∧
    decodeWord 0x00000403 = .ok (.interp 0 0 1 0) := by decide

/-- SUBPIX_VAR.4x4 4, 4 and 7, 7, SUBPIX_AVG_VAR.8x8 2, 6 and .4x4 3, 5 (95_test_vectors E5, E6, E7, P4). -/
theorem test_decode_subpixel :
    decodeWord 0b0000000000000000_100_100_000_000_0101 = .ok (.subpixVar 0 0 4 4) ∧
    decodeWord 0x0000FC05 = .ok (.subpixVar 0 0 7 7) ∧
    decodeWord 0b0000000000000000_110_010_001_001_0110 = .ok (.subpixAvgVar 1 1 2 6) ∧
    decodeWord 0x0000AC06 = .ok (.subpixAvgVar 0 0 3 5) := by decide

/-- The words that are no command (95_test_vectors E9 to E14, E19, E20). -/
theorem test_decode_rejects :
    [0x00000000, 0x00000007, 0x0000000F, 0x00010000].map decodeWord = List.replicate 4 (.error .illegalOp) ∧
    [0x00010092, 0x00000491, 0x00002092, 0x00010051].map decodeWord = List.replicate 4 (.error .rsvdField) := by
  decide

/-- The assembler's words (30_encoding R101). -/
theorem test_encode_examples :
    [Instr.sse 1 1, .var 1 1, .interp 1 0 4 0, .interpAvg 0 0 4 4, .subpixVar 0 0 4 4, .subpixAvgVar 1 1 2 6].map encode
      = [0x00000091, 0x00000092, 0x00001013, 0x00009004, 0x00009005, 0x0000C896] := by decide

/-- The assembler's text of commands of catalogue sizes (30_encoding R101). -/
theorem test_assembler_text :
    [Instr.sse 1 1, .interp 1 0 4 0, .subpixAvgVar 1 1 2 6].map assemblerText
      = ["SSE.8x8", "INTERP.8x4 4, 0", "SUBPIX_AVG_VAR.8x8 2, 6"] := by decide

/-- The word in bytes, bits 7:0 first (20_memory R63), and the command a number decodes to. -/
theorem test_decode_bytes :
    decode [0x96, 0xC8, 0x00, 0x00, 0xFF] = .ok (.subpixAvgVar 1 1 2 6, [0xFF]) ∧
    decode [0x96, 0xC8, 0x00] = .error .truncated ∧
    decodeTableWord 32 0xC896 = some (.subpixAvgVar 1 1 2 6) := by decide

/-! ## Arithmetic -/

/-- One pass of the filter at every phase on six sample pairs (95_test_vectors 2.2). -/
theorem test_filter_table :
    (List.range 8).map (fun p => [(255, 0), (0, 255), (1, 0), (0, 1), (1, 2), (100, 101)].map fun s : Nat × Nat =>
        filterTap (filt (BitVec.ofNat 3 p)) s.1 s.2)
      = [[255, 0, 1, 0, 1, 100], [223, 32, 1, 0, 1, 100], [191, 64, 1, 0, 1, 100], [159, 96, 1, 0, 1, 100],
         [128, 128, 1, 1, 2, 101], [96, 159, 0, 1, 2, 101], [64, 191, 0, 1, 2, 101], [32, 223, 0, 1, 2, 101]] := by
  decide

/-- The averaging step (95_test_vectors 2.4, V1 to V7). -/
theorem test_average :
    [(0, 0), (0, 1), (1, 2), (254, 255), (255, 255), (100, 200), (0, 255)].map (fun s : Nat × Nat => avg2 s.1 s.2)
      = [0, 1, 2, 255, 255, 150, 128] := by decide

/-- Two passes round twice (95_test_vectors I4, I5, I6; 42_interpolation R146). -/
theorem test_two_passes :
    interpolate 4 4 (fun r c => if r = 0 ∧ c = 1 then 1 else 0) 0 0 = 1 ∧
    interpolate 7 7 (fun r c => if r = 0 ∧ c = 0 then 255 else 0) 0 0 = 4 ∧
    interpolate 1 1 (fun r c => if r = 0 ∧ c = 0 then 255 else 0) 0 0 = 195 := by decide

/-! ## The six commands -/

/-- Two 4x4 blocks, A at 0x100 and B at 0x200. -/
def twoBlocks (f g : Nat → Nat → Nat) : Memory := fill 0x100 4 4 4 f ++ fill 0x200 4 4 4 g

/-- A command on 4x4 blocks with stride 4: A at 0x100 and B at 0x200. -/
def onBlocks (w : Word) (f g : Nat → Nat → Nat) : State :=
  started w (view 0x100 4) (view 0x200 4) (view 0 0) (view 0 0) (twoBlocks f g)

/-- SSE.4x4 of two all-0 blocks keeps RES_VAR (95_test_vectors T12). -/
theorem test_sse_keeps_var : results (onBlocks 0x00000001 (fun _ _ => 0) (fun _ _ => 0)) = (0, 9, 0) := by
  decide +kernel

/-- SSE.4x4, one pixel of B is 3 (95_test_vectors S6). -/
theorem test_sse_sign :
    results (onBlocks 0x00000001 (fun _ _ => 0) (fun r c => if r = 1 ∧ c = 2 then 3 else 0)) = (9, 9, 0xFFFFFFFD) := by
  decide +kernel

/-- VAR.4x4, one pixel of B is 3: the division truncates (95_test_vectors S6). -/
theorem test_var_truncates :
    results (onBlocks 0x00000002 (fun _ _ => 0) (fun r c => if r = 1 ∧ c = 2 then 3 else 0)) = (9, 9, 0xFFFFFFFD) := by
  decide +kernel

/-- VAR.4x4 of a checkerboard (95_test_vectors S7). -/
theorem test_var_checkerboard :
    results (onBlocks 0x00000002 (fun r c => (r + c) % 2) (fun _ _ => 0)) = (8, 4, 8) := by decide +kernel

/-- An interpolation source of 5 rows of 9 samples at 0x100 with stride 16, S at 0x200 and D at 0x300 with stride 8. -/
def onSource (w : Word) (f g : Nat → Nat → Nat) : State :=
  started w (view 0x100 16) (view 0 0) (view 0x200 8) (view 0x300 8) (fill 0x100 16 5 9 f ++ fill 0x200 8 4 8 g)

/-- INTERP.8x4 4, 0 of a ramp (95_test_vectors I1), first and last row. -/
theorem test_interp_ramp :
    bytesAfter (onSource 0x00001013 (fun _ c => 16 * c) (fun _ _ => 0))
        [0x300, 0x301, 0x302, 0x303, 0x304, 0x305, 0x306, 0x307, 0x318, 0x31F, 0x320]
      = [some 8, some 24, some 40, some 56, some 72, some 88, some 104, some 120, some 8, some 120, none] := by
  decide +kernel

/-- INTERP.4x4 0, 0 writes no result register (95_test_vectors T13). -/
theorem test_interp_keeps_results :
    results (onSource 0x00000003 (fun _ c => 16 * c) (fun _ _ => 0)) = (9, 9, 3) := by decide +kernel

/-- INTERP_AVG.4x4 0, 0: 150.5 rounds up (95_test_vectors I7). -/
theorem test_interpAvg_rounds_up :
    bytesAfter (onSource 0x00000004 (fun _ _ => 100) (fun _ _ => 201)) [0x300, 0x303, 0x31B, 0x304]
      = [some 151, some 151, some 151, none] := by decide +kernel

/-- INTERP_AVG.4x4 4, 4 of equal values (95_test_vectors I8). -/
theorem test_interpAvg_equal :
    bytesAfter (onSource 0x00009004 (fun _ _ => 100) (fun _ _ => 100)) [0x300, 0x31B] = [some 100, some 100] := by
  decide +kernel

/-- SUBPIX_VAR.4x4 4, 0 (95_test_vectors X1). -/
theorem test_subpixVar_ramp :
    results (started 0x00001005 (view 0x100 8) (view 0x200 4) (view 0 0) (view 0 0)
        (fill 0x100 8 5 5 (fun _ c => 16 * c) ++ fill 0x200 4 4 4 fun _ c => 16 * c))
      = (1024, 0, 128) := by decide +kernel

/-- SUBPIX_VAR.4x4 2, 0, the best phase of program P5 (95_test_vectors P5). -/
theorem test_subpixVar_sweep :
    results (started 0x00000805 (view 0x100 8) (view 0x200 4) (view 0 0) (view 0 0)
        (fill 0x100 8 5 5 (fun r c => 9 * c * c + 5 * r) ++ fill 0x200 4 4 4 fun r c => 9 * c * c + 10 + 5 * r))
      = (440, 424, 0xFFFFFFF0) := by decide +kernel

/-- SUBPIX_AVG_VAR.4x4 3, 5 (95_test_vectors X4, P4). -/
theorem test_subpixAvgVar_general :
    results (started 0x0000AC06 (view 0x4000 5) (view 0x6000 4) (view 0x5000 4) (view 0 0)
        (fill 0x4000 5 5 5 (fun r c => (37 * r + 53 * c) % 256) ++
          fill 0x5000 4 4 4 (fun r c => (11 * r + 29 * c + 7) % 256) ++
          fill 0x6000 4 4 4 fun r c => (19 * r + 41 * c + 3) % 256))
      = (0x54B0, 0x500A, 0x8A) := by decide +kernel

/-- SUBPIX_AVG_VAR.4x4 0, 0 with S = B: the average is not B (95_test_vectors X8). -/
theorem test_subpixAvgVar_tie :
    results (started 0x00000006 (view 0x100 5) (view 0x200 4) (view 0x200 4) (view 0 0)
        (fill 0x100 5 5 5 (fun _ _ => 0) ++ fill 0x200 4 4 4 fun _ _ => 3))
      = (16, 0, 0xFFFFFFF0) := by decide +kernel

/-! ## Errors (95_test_vectors 2.7) -/

/-- F1 to F5: the word, the size and the strides of VAR.8x8; the result registers keep (9, 9, 3). -/
theorem test_configuration_errors :
    [started 0x00000000 (view 0 0) (view 0 0) (view 0 0) (view 0 0) [],
     started 0x00010092 (view 0 0) (view 0 0) (view 0 0) (view 0 0) [],
     started 0x00000102 (view 0 0) (view 0 0) (view 0 0) (view 0 0) [],
     started 0x00000092 (view 0 4) (view 0 8) (view 0 0) (view 0 0) [],
     started 0x00000092 (view 0 8) (view 0 7) (view 0 0) (view 0 0) []].map ending
      = [(0x16, 0, 9, 9, 3), (0x26, 0, 9, 9, 3), (0x36, 0, 9, 9, 3), (0x46, 0, 9, 9, 3), (0x46, 0, 9, 9, 3)] := by
  decide +kernel

/-- F6, F7, F9 to F12: each role's stride and window, the stride looked at before the address, S not looked at. -/
theorem test_view_errors :
    [started 0x00000003 (view 0 4) (view 0 0) (view 0 0) (view 0x100 3) [],
     started 0x00000003 (view 0 3) (view 0 0) (view 0 0) (view 0x100 4) [],
     started 0x00000092 (view 0xFFFFFFC1 8) (view 0 8) (view 0 0) (view 0 0) [],
     started 0x00000003 (view 0xFFFFFFEC 4) (view 0 0) (view 0 0) (view 0x100 4) [],
     started 0x00000092 (view 0xFFFFFFFF 4) (view 0 8) (view 0 0) (view 0 0) [],
     started 0x00000092 (view 0 8) (view 0 0) (view 0xFFFFFFFF 0) (view 0 0) []].map ending
      = [(0x46, 0, 9, 9, 3), (0x46, 0, 9, 9, 3), (0x56, 0, 9, 9, 3), (0x56, 0, 9, 9, 3), (0x46, 0, 9, 9, 3),
         (0x46, 0, 9, 9, 3)] := by decide +kernel

/-- F8: a window that ends at 0xFFFF_FFFF is legal. -/
theorem test_last_address_legal :
    (ending (started 0x00000092 (view 0xFFFFFFC0 8) (view 0xFFFFFFC0 8) (view 0 0) (view 0 0)
      (fill 0xFFFFFFC0 8 8 8 fun _ _ => 7))).1 = 2 := by decide +kernel

/-! ## The register port (95_test_vectors 2.8) -/

/-- The state after `n` steps that all answer a next state. -/
def after : Nat → State → State
  | 0, s => s
  | n + 1, s => after n (nextOr State.reset (step s))

/-- T17: CMD stores all 32 bits, and a START of that word ends with ILLEGAL_OP. -/
theorem test_cmd_stores_all_bits :
    (after 5 { State.reset with inputs := [wr Platform.reset 0x0C 0xDEADBEEF, rd Platform.reset 0x0C,
        wr Platform.reset 0x04 1, .engineTurn, rd Platform.reset 0x08] }).responses
      = [.word 0x16, .word 0xDEADBEEF] := by decide +kernel

/-- T10: enabling the interrupt on a stale DONE raises `irq` at once. -/
theorem test_stale_done_raises_irq :
    (after 1 { State.reset with regs := { Regs.reset with done := true }
                                inputs := [wr Platform.reset 0x04 2] }).irq = true := by decide +kernel

/-- T8: a write of 4 to STATUS keeps DONE and clears the error. -/
theorem test_status_write_keeps_done :
    statusWord (after 1 { State.reset with
      regs := { Regs.reset with done := true, err := true, errCode := 4 }
      inputs := [wr Platform.reset 0x08 4] }).regs = 2 := by decide +kernel

/-- T and X are empty after SUBPIX_VAR.4x4 4, 0 as they were before it (10_state R51, R52). -/
theorem test_buffers_discarded :
    let s := started 0x00001005 (view 0x100 8) (view 0x200 4) (view 0 0) (view 0 0) []
    (nextOr State.reset (step s)).regs.err = false ∧ (nextOr State.reset (step s)).hidden.t = [] ∧
      (nextOr State.reset (step s)).hidden.x = [] := by decide +kernel

/-- A loaded command runs as the very next step: from reset the strides are 0, so INTERP ends with BAD_STRIDE. -/
theorem test_loaded_word_runs :
    (nextOr State.reset (step (State.reset.withFetchWord 32 0x00000003))).regs.errCode = 4 := by decide +kernel

/-! ## Witnesses: for every obligation with hypotheses, a case that meets them together -/

/-- A 4x4 size. -/
def size4 : Size := { w := 4, h := 4, l := 4 }

/-- A started command with every view in its own 64 bytes, stride 8, all bytes 7: A at 0x100, B at 0x140, S at 0x180, D at
0x1C0. -/
def plain (w : Word) : State :=
  started w (view 0x100 8) (view 0x140 8) (view 0x180 8) (view 0x1C0 8) (fill 0x100 8 32 8 fun _ _ => 7)

/-- The platform of the stops: RAM at 0x100, nothing at 0x200, a device at 0x300, and nothing said of the rest. -/
def patchy (b : BusErrResponse) : Platform :=
  { regBase := 0x80000000, busErrResponse := b,
    regions := [⟨0x100, 0x100, .ram⟩, ⟨0x200, 0x100, .unbacked⟩, ⟨0x300, 0x100, .device⟩] }

/-- `plain` on the platform of the stops, with view A elsewhere. -/
def elsewhere (b : BusErrResponse) (w a : Word) : State :=
  { plain w with platform := patchy b, latch := { (plain w).latch with viewA := view a 8 } }

/-- What holds of the command in flight, when there is one, holds of every one. -/
theorem forall_inFlight {s : State} {P : Instr → Size → Prop}
    (h : ∀ p ∈ inFlight s, P p.1 p.2) : ∀ i sz, inFlight s = some (i, sz) → P i sz :=
  fun i sz hf => h (i, sz) hf

/-- EncodeOfDecode, WordSelectsOneRow: a word that decodes, at the largest fields. -/
theorem test_witness_decodes : decodeWord 0x0000FE46 = .ok (.subpixAvgVar 4 4 7 7) := by decide

/-- StepRunsLatchedCommand: the engine's turn with nothing pending, with its turn named, and with the host waiting. -/
theorem test_witness_step_runs :
    (plain 0x00000001).regs.busy = true ∧ (plain 0x00000001).rst = false ∧ decodeWord (plain 0x00000001).latch.cmd = .ok (.sse 0 0) ∧
    (plain 0x00000001).inputs = [] ∧
    { plain 0x00000001 with inputs := [.engineTurn] }.inputs = .engineTurn :: [] ∧
    { plain 0x00000001 with inputs := [.wait, .wait] }.inputs = .wait :: [.wait] := by decide +kernel

/-- BadWordEndsWithError, ILLEGAL_OP: OP 0, 7 and 15, on each of the engine's turns. -/
theorem test_witness_illegal_op :
    (plain 0x00000000).regs.busy = true ∧ (plain 0x00000000).rst = false ∧ (plain 0x00000000).inputs = [] ∧
    { plain 0x00000000 with inputs := [.engineTurn] }.inputs = .engineTurn :: [] ∧
    { plain 0x00000000 with inputs := [.wait] }.inputs = .wait :: [] ∧
    (plain 0x00000000).latch.cmd.toNat % 16 = 0 ∧ 6 < (plain 0x00010007).latch.cmd.toNat % 16 ∧
    6 < (plain 0x0000000F).latch.cmd.toNat % 16 := by decide

/-- BadWordEndsWithError, RSVD_FIELD: the highest reserved bit, and a phase of SSE and of VAR. -/
theorem test_witness_reserved_field :
    (1 ≤ (plain 0x80000006).latch.cmd.toNat % 16 ∧ (plain 0x80000006).latch.cmd.toNat % 16 ≤ 6 ∧
      (plain 0x80000006).latch.cmd.toNat / 2 ^ 16 ≠ 0) ∧
    ((plain 0x00000401).latch.cmd.toNat % 16 = 1 ∧ (plain 0x00000401).latch.cmd.toNat / 2 ^ 10 % 64 ≠ 0) ∧
    ((plain 0x00008002).latch.cmd.toNat % 16 = 2 ∧ (plain 0x00008002).latch.cmd.toNat / 2 ^ 10 % 64 ≠ 0) := by decide

/-- IdleStepChangesNothing: the machine after reset, on each of the engine's turns. -/
theorem test_witness_idle :
    State.reset.regs.busy = false ∧ State.reset.rst = false ∧ State.reset.inputs = [] ∧
    { State.reset with inputs := [.engineTurn] }.inputs = .engineTurn :: [] ∧
    { State.reset with inputs := [.wait, .wait] }.inputs = .wait :: [.wait] := by decide

/-- IDLE with a START pending. -/
def aboutToStart : State := { State.reset with inputs := [wr Platform.reset 0x04 3] }

/-- SSE in flight on two blocks of zeros. -/
def reducing : State := onBlocks 0x00000001 (fun _ _ => 0) fun _ _ => 0

/-- A command in flight with a soft reset pending. -/
def aboutToAbort (w : Word) : State := { plain w with inputs := [wr Platform.reset 0x04 5], mem := [(0x1C0, 7)] }

/-- A command in flight with `rst` about to be asserted, or, in a state that no run reaches, released. -/
def atReset (rst : Bool) (move : Input) : State := { plain 0x00000001 with rst := rst, inputs := [move] }

/-- BusyChangesOnlyAsStated: BUSY falls at the assertion of `rst` and, in a state that no run reaches, at its release. -/
theorem test_witness_busy_rst :
    (step (atReset false .assertRst) = .next (nextOr State.reset (step (atReset false .assertRst))) ∧
      (atReset false .assertRst).regs.busy = true ∧
      (nextOr State.reset (step (atReset false .assertRst))).regs.busy = false) ∧
    (step (atReset true .releaseRst) = .next (nextOr State.reset (step (atReset true .releaseRst))) ∧
      (atReset true .releaseRst).regs.busy = true ∧
      (nextOr State.reset (step (atReset true .releaseRst))).regs.busy = false) :=
  ⟨⟨goesOn_next (by decide +kernel), by decide +kernel⟩, goesOn_next (by decide +kernel), by decide +kernel⟩

/-- BusyChangesOnlyAsStated: BUSY rises at a START; it falls at a completion and at a soft reset. -/
theorem test_witness_busy :
    (step aboutToStart = .next (nextOr State.reset (step aboutToStart)) ∧ aboutToStart.regs.busy = false ∧
      (nextOr State.reset (step aboutToStart)).regs.busy = true) ∧
    (step (plain 0x00000001) = .next (nextOr State.reset (step (plain 0x00000001))) ∧
      (plain 0x00000001).regs.busy = true ∧ (nextOr State.reset (step (plain 0x00000001))).regs.busy = false ∧
      (nextOr State.reset (step (plain 0x00000001))).regs.done = true) ∧
    (step (aboutToAbort 0x00000001) = .next (nextOr State.reset (step (aboutToAbort 0x00000001))) ∧
      (aboutToAbort 0x00000001).regs.busy = true ∧
      (nextOr State.reset (step (aboutToAbort 0x00000001))).regs.busy = false) :=
  ⟨⟨goesOn_next (by decide +kernel), by decide +kernel⟩, ⟨goesOn_next (by decide +kernel), by decide +kernel⟩,
    goesOn_next (by decide +kernel), by decide +kernel⟩

/-- ResultsChangeOnlyAtSuccess: a success, and a soft reset, change RES_SSE. -/
theorem test_witness_results_change :
    (reducing.Inv ∧ step reducing = .next (nextOr State.reset (step reducing)) ∧
      (nextOr State.reset (step reducing)).regs.resSse ≠ reducing.regs.resSse) ∧
    ((aboutToAbort 0x00000001).Inv ∧
      step (aboutToAbort 0x00000001) = .next (nextOr State.reset (step (aboutToAbort 0x00000001))) ∧
      (nextOr State.reset (step (aboutToAbort 0x00000001))).regs.resSse ≠ (aboutToAbort 0x00000001).regs.resSse) :=
  ⟨⟨by decide +kernel, goesOn_next (by decide +kernel), by decide +kernel⟩, by decide +kernel,
    goesOn_next (by decide +kernel), by decide +kernel⟩

/-- IDLE with a host store of the byte 1 at the last address pending. -/
def aboutToStore : State := { State.reset with inputs := [.host (.memStore 0xFFFFFFFF 1)] }

/-- INTERP in flight over source bytes that are not the destination's. -/
def interpolating : State :=
  started 0x00000003 (view 0x100 8) (view 0 0) (view 0 0) (view 0x200 8) (fill 0x100 8 5 5 fun _ _ => 7)

/-- StepKeepsInvariant: a command runs, and it stores. -/
theorem test_witness_invariant :
    interpolating.Inv ∧ step interpolating = .next (nextOr State.reset (step interpolating)) :=
  ⟨by decide +kernel, goesOn_next (by decide +kernel)⟩

/-- MemoryChangesOnlyAsStated: a host store and the command in flight each change a byte. -/
theorem test_witness_memory_change :
    (step aboutToStore = .next (nextOr State.reset (step aboutToStore)) ∧
      Memory.read (nextOr State.reset (step aboutToStore)).mem 0xFFFFFFFF ≠
        Memory.read aboutToStore.mem 0xFFFFFFFF) ∧
    (step interpolating = .next (nextOr State.reset (step interpolating)) ∧
      Memory.read (nextOr State.reset (step interpolating)).mem 0x200 ≠ Memory.read interpolating.mem 0x200) :=
  ⟨⟨goesOn_next (by decide +kernel), by decide +kernel⟩, goesOn_next (by decide +kernel), by decide +kernel⟩

/-- The completion statements, ResultBounds, the laws and the interpolation statements: a clean launch of each command. -/
theorem test_witness_clean_launch :
    CleanLaunch (.sse 0 0) size4 (plain 0x00000001) ∧ CleanLaunch (.var 0 0) size4 (plain 0x00000002) ∧
    CleanLaunch (.interp 0 0 4 0) size4 (plain 0x00001003) ∧
    CleanLaunch (.interpAvg 0 0 7 7) size4 (plain 0x0000FC04) ∧
    CleanLaunch (.subpixVar 0 0 1 2) size4 (plain 0x00004405) ∧
    CleanLaunch (.subpixAvgVar 0 0 3 5) size4 (plain 0x0000AC06) :=
  ⟨by decide +kernel, by decide +kernel, by decide +kernel, by decide +kernel, by decide +kernel, by decide +kernel⟩

/-- The same at the last addresses there are (20_memory R69). -/
theorem test_witness_clean_launch_at_top :
    CleanLaunch (.sse 1 1) { w := 8, h := 8, l := 6 }
      (started 0x00000091 (view 0xFFFFFFC0 8) (view 0xFFFFFFC0 8) (view 0 0) (view 0 0) []) := by decide +kernel

/-- PhaseZeroCopiesBlock, PhaseZeroAverages, SubpixVarAtPhaseZeroIsVar: clean launches at phase (0, 0). -/
theorem test_witness_phase_zero :
    CleanLaunch (Instr.copy 0 0) size4 (plain 0x00000003) ∧ CleanLaunch (Instr.avg 0 0) size4 (plain 0x00000004) ∧
    CleanLaunch (.subpixVar 0 0 0 0) size4 (plain 0x00000005) := by decide +kernel

/-- UniformDifferenceHasNoVariance: blocks of 3 and of 10, so k = -7. -/
theorem test_witness_uniform :
    CleanLaunch (.var 0 0) size4 (onBlocks 0x00000002 (fun _ _ => 3) fun _ _ => 10) ∧
    ∀ r < size4.h, ∀ c < size4.w,
      (pix (onBlocks 0x00000002 (fun _ _ => 3) fun _ _ => 10).mem (view 0x100 4) r c : Int) -
        (pix (onBlocks 0x00000002 (fun _ _ => 3) fun _ _ => 10).mem (view 0x200 4) r c : Int) = -7 := by
  decide +kernel

/-- SubpixIsVarOfStoredBlock, both clauses: of equal samples every interpolated and averaged sample is the same. -/
theorem test_witness_stored_block :
    CleanLaunch (.var 0 0) size4 (plain 0x00000002) ∧ CleanLaunch (.subpixVar 0 0 3 5) size4 (plain 0x0000AC05) ∧
    CleanLaunch (.subpixAvgVar 0 0 3 5) size4 (plain 0x0000AC06) ∧
    ∀ r < size4.h, ∀ c < size4.w,
      pix (plain 0x00000002).mem (view 0x140 8) r c = pix (plain 0x0000AC05).mem (view 0x140 8) r c ∧
      pix (plain 0x00000002).mem (view 0x100 8) r c =
        sampleAt 3 5 (pix (plain 0x0000AC05).mem (view 0x100 8)) r c ∧
      pix (plain 0x00000002).mem (view 0x100 8) r c =
        averagedAt 3 5 (pix (plain 0x0000AC06).mem (view 0x100 8)) (pix (plain 0x0000AC06).mem (view 0x180 8)) r c := by
  decide +kernel

/-- InterpStaysBetweenSamples: four samples 7 lie between 7 and 7. -/
theorem test_witness_between :
    ∀ r < size4.h, ∀ c < size4.w,
      ∀ p ∈ [pix (plain 3).mem (view 0x100 8) r c, pix (plain 3).mem (view 0x100 8) r (c + 1),
             pix (plain 3).mem (view 0x100 8) (r + 1) c, pix (plain 3).mem (view 0x100 8) (r + 1) (c + 1)],
        7 ≤ p ∧ p ≤ 7 := by decide +kernel

/-- The frames, EveryEndSetsDone: each command answers a next state. -/
theorem test_witness_exec_next :
    exec (.sse 0 0) (plain 1) = .next (nextOr State.reset (exec (.sse 0 0) (plain 1))) ∧
    exec (.var 0 0) (plain 2) = .next (nextOr State.reset (exec (.var 0 0) (plain 2))) ∧
    exec (.interp 0 0 1 2) (plain 3) = .next (nextOr State.reset (exec (.interp 0 0 1 2) (plain 3))) ∧
    exec (.interpAvg 0 0 1 2) (plain 4) = .next (nextOr State.reset (exec (.interpAvg 0 0 1 2) (plain 4))) ∧
    exec (.subpixVar 0 0 1 2) (plain 5) = .next (nextOr State.reset (exec (.subpixVar 0 0 1 2) (plain 5))) ∧
    exec (.subpixAvgVar 0 0 1 2) (plain 6) = .next (nextOr State.reset (exec (.subpixAvgVar 0 0 1 2) (plain 6))) :=
  ⟨goesOn_next (by decide +kernel), goesOn_next (by decide +kernel), goesOn_next (by decide +kernel),
    goesOn_next (by decide +kernel), goesOn_next (by decide +kernel), goesOn_next (by decide +kernel)⟩

/-- The frames of bytes: an address outside the window of D. -/
theorem test_witness_outside_window :
    ∀ r < size4.h, ∀ c < size4.w, 0x1C4 ≠ pixAddr (plain 3).latch.viewD r c := by decide +kernel

/-- ResultsDependOnInputsAlone: two states that differ in registers, hidden state, and the destination's bytes. -/
theorem test_witness_inputs_alone :
    CleanLaunch (.interp 0 0 1 2) size4 interpolating ∧
    { interpolating with regs := Regs.reset, mem := interpolating.mem ++ [(0x200, 9)] }.latch = interpolating.latch ∧
    { interpolating with regs := Regs.reset, mem := interpolating.mem ++ [(0x200, 9)] }.platform =
      interpolating.platform ∧
    ∀ v ∈ usedViews (.interp 0 0 1 2) interpolating.latch, v.role ≠ .dest → ∀ a ∈ v.addrs size4,
      Memory.byteAt (interpolating.mem ++ [(0x200, 9)]) a = Memory.byteAt interpolating.mem a := by decide +kernel

/-- UnusedViewsDoNotMatter: another S and D under SSE, in a run, in a fault and in a refusal. -/
theorem test_witness_unused_views :
    (let l := { (plain 1).latch with viewS := view 0xFFFFFFFF 0, viewD := view 0x300 0 }
     l.viewA = (plain 1).latch.viewA ∧ l.viewB = (plain 1).latch.viewB) ∧
    exec (.sse 0 0) (plain 1) = .next (nextOr State.reset (exec (.sse 0 0) (plain 1))) ∧
    exec (.sse 0 0) (elsewhere .error 1 0x400) = .fault .unadmitted ∧
    exec (.sse 0 0) (elsewhere .error 1 0x300) = .refused .nonIdempotent :=
  ⟨by decide +kernel, goesOn_next (by decide +kernel), answer_inj (by decide +kernel),
    answer_inj (by decide +kernel)⟩

/-- CleanLaunchCompletes: the premises together. -/
theorem test_witness_clean_completes :
    reducing.Inv ∧ reducing.regs.busy = true ∧ reducing.inputs = [] ∧
    decodeWord reducing.latch.cmd = .ok (.sse 0 0) ∧ CleanLaunch (.sse 0 0) size4 reducing := by
  decide +kernel

/-- BadSizeEndsCommand: a code of 5, and codes two apart. -/
theorem test_witness_bad_size :
    4 < (Instr.sse 5 4).wcode.toNat ∧ 4 < (Instr.sse 4 5).hcode.toNat ∧
    (Instr.sse 0 2).wcode.toNat + 1 < (Instr.sse 0 2).hcode.toNat ∧
    (Instr.sse 2 0).hcode.toNat + 1 < (Instr.sse 2 0).wcode.toNat := by decide

/-- BadStrideEndsCommand: stride 3 under W = 4, of the interpolation source and of the destination; and stride 4 of the
source, at which the command completes. -/
theorem test_witness_bad_stride :
    sizeDecode (Instr.interp 0 0 0 0).wcode (Instr.interp 0 0 0 0).hcode = some size4 ∧
    (∀ l ∈ [{ (plain 3).latch with viewA := view 0x100 3 }, { (plain 3).latch with viewD := view 0x100 3 }],
      ∃ u ∈ usedViews (.interp 0 0 0 0) l, u.view.stride.toNat < size4.w) ∧
    (let s := { plain 3 with latch := { (plain 3).latch with viewA := view 0x100 4 } }
     (∀ u ∈ usedViews (.interp 0 0 0 0) s.latch, size4.w ≤ u.view.stride.toNat) ∧
       exec (.interp 0 0 0 0) s = .next (nextOr State.reset (exec (.interp 0 0 0 0) s))) :=
  ⟨by decide +kernel, by decide +kernel, by decide +kernel, goesOn_next (by decide +kernel)⟩

/-- AddrWrapEndsCommand: the interpolation source's extra row passes the end (95_test_vectors F10). -/
theorem test_witness_addr_wrap :
    sizeDecode (Instr.interp 0 0 0 0).wcode (Instr.interp 0 0 0 0).hcode = some size4 ∧
    (let l := { (plain 3).latch with viewA := view 0xFFFFFFEC 4 }
     (∀ v ∈ usedViews (.interp 0 0 0 0) l, size4.w ≤ v.view.stride.toNat) ∧
       ⟨view 0xFFFFFFEC 4, .interpSrc⟩ ∈ usedViews (.interp 0 0 0 0) l) ∧
    2 ^ 32 ∈ (UsedView.mk (view 0xFFFFFFEC 4) .interpSrc).addrs size4 := by decide +kernel

/-- BusErrorEndsCommand, UnansweredCommandHangs: the source's extra row and column reach into nothing. -/
theorem test_witness_unanswered :
    let l := { (plain 3).latch with viewA := view 0x1E0 8, viewD := view 0x100 8 }
    ∀ b ∈ [BusErrResponse.error, .hang],
      LegalConfig (.interp 0 0 0 0) l size4 ∧ NoOverlap (.interp 0 0 0 0) l size4 ∧
      (∀ a ∈ accessAddrs (.interp 0 0 0 0) l size4,
        (patchy b).kindOf a = some .ram ∨ (patchy b).kindOf a = some .unbacked) ∧
      (∃ a ∈ accessAddrs (.interp 0 0 0 0) l size4, (patchy b).kindOf a = some .unbacked) ∧
      (patchy b).busErrResponse = b := by decide +kernel

/-- OverlapFaults: one byte in common, the source's extra row's last one. -/
theorem test_witness_overlap :
    let l := { (plain 3).latch with viewD := view 0x124 8 }
    LegalConfig (.interp 0 0 0 0) l size4 ∧
    (∀ b ∈ accessAddrs (.interp 0 0 0 0) l size4, Platform.reset.kindOf b = some .ram) ∧
    ⟨view 0x124 8, .dest⟩ ∈ usedViews (.interp 0 0 0 0) l ∧
    ⟨view 0x100 8, .interpSrc⟩ ∈ usedViews (.interp 0 0 0 0) l ∧
    0x124 ∈ (UsedView.mk (view 0x124 8) .dest).addrs size4 ∧
    0x124 ∈ (UsedView.mk (view 0x100 8) .interpSrc).addrs size4 := by decide +kernel

/-- UnfitWindowsStop: a window over a device, and one over addresses the launch says nothing of. -/
theorem test_witness_unfit :
    (LegalConfig (.sse 0 0) (elsewhere .error 1 0x3FF).latch size4 ∧
      ∃ a ∈ accessAddrs (.sse 0 0) (elsewhere .error 1 0x3FF).latch size4, (patchy .error).kindOf a = some .device) ∧
    (LegalConfig (.sse 0 0) (elsewhere .error 1 0x400).latch size4 ∧
      (∀ a ∈ accessAddrs (.sse 0 0) (elsewhere .error 1 0x400).latch size4,
        (patchy .error).kindOf a ≠ some .device) ∧
      ∃ a ∈ accessAddrs (.sse 0 0) (elsewhere .error 1 0x400).latch size4, (patchy .error).kindOf a = none) := by
  decide +kernel

/-- EveryEndSetsDone, ErrorCompletionIsPrecise: an error completion, a bus error, and a platform that never answers. -/
theorem test_witness_error_endings :
    ((plain 3).regs.err = false ∧ exec (.sse 5 0) (plain 3) = .next (nextOr State.reset (exec (.sse 5 0) (plain 3))) ∧
      (nextOr State.reset (exec (.sse 5 0) (plain 3))).regs.err = true) ∧
    (exec (.sse 0 0) (elsewhere .error 1 0x200) =
        .next (nextOr State.reset (exec (.sse 0 0) (elsewhere .error 1 0x200))) ∧
      (nextOr State.reset (exec (.sse 0 0) (elsewhere .error 1 0x200))).regs.errCode = 6) ∧
    exec (.sse 0 0) (elsewhere .hang 1 0x200) = .next (elsewhere .hang 1 0x200) :=
  ⟨⟨by decide +kernel, goesOn_next (by decide +kernel), by decide +kernel⟩,
    ⟨goesOn_next (by decide +kernel), by decide +kernel⟩, answer_inj (by decide +kernel)⟩

/-- The register port's statements: `rst` released, and each register access pending, at the first and the last offset. -/
theorem test_witness_register_access :
    State.reset.rst = false ∧ State.reset.regs.busy = false ∧ reducing.rst = false ∧ reducing.regs.busy = true ∧
    (∀ off ∈ [0x00, 0x08, 0x0C, 0x3C],
      { State.reset with inputs := [rd Platform.reset off] }.inputs = rd State.reset.platform off :: []) ∧
    (∀ off ∈ [0x0C, 0x2C], { State.reset with inputs := [wr Platform.reset off 5, rd Platform.reset off] }.inputs =
      wr State.reset.platform off 5 :: rd State.reset.platform off :: []) ∧
    (∀ off ∈ [0x00, 0x08, 0x0C, 0x2C, 0x3C], { reducing with inputs := [wr Platform.reset off 6] }.inputs =
      wr reducing.platform off 6 :: []) ∧ reducing.Inv := by decide +kernel

/-- BadRegisterAccessRefused: another width, a misaligned offset, the first offset outside; read and write. -/
theorem test_witness_bad_register_access :
    (16 : Nat) ≠ 32 ∧ ((2 : Word) - State.reset.platform.regBase).toNat % 4 ≠ 0 ∧
    0x40 ≤ ((0x40 : Word) - State.reset.platform.regBase).toNat ∧
    { State.reset with inputs := [.host (.regRead 0x40 32)] }.inputs = .host (.regRead 0x40 32) :: [] ∧
    { State.reset with inputs := [.host (.regWrite 8 16 0)] }.inputs = .host (.regWrite 8 16 0) :: [] := by
  decide +kernel

/-- CtrlWriteStarts: an accepted START, a START while BUSY, and a write without START. -/
theorem test_witness_ctrl :
    (aboutToStart.rst = false ∧ aboutToStart.inputs = wr aboutToStart.platform 0x04 3 :: [] ∧
      (3 : Word).getLsbD 2 = false ∧ (3 : Word).getLsbD 0 = true ∧ aboutToStart.regs.busy = false) ∧
    ({ plain 1 with inputs := [wr Platform.reset 0x04 1] }.inputs = wr (plain 1).platform 0x04 1 :: [] ∧
      (1 : Word).getLsbD 2 = false ∧ (plain 1).regs.busy = true) ∧
    ((2 : Word).getLsbD 2 = false ∧ (2 : Word).getLsbD 0 = false) := by decide +kernel

/-- IDLE with DONE still 1 and a write to CTRL pending. -/
def staleDone (v : Word) : State :=
  { State.reset with regs := { Regs.reset with done := true }, inputs := [wr Platform.reset 0x04 v] }

/-- StaleDoneRaisesIrq: an enable on a stale DONE, with and without START; and with DONE already clear. -/
theorem test_witness_stale_done :
    ((staleDone 2).rst = false ∧ (staleDone 2).inputs = wr (staleDone 2).platform 0x04 2 :: [] ∧
      (2 : Word).getLsbD 2 = false ∧ (2 : Word).getLsbD 1 = true ∧ (staleDone 2).regs.busy = false ∧
      (staleDone 2).regs.done = true ∧ (2 : Word).getLsbD 0 = false) ∧
    ((staleDone 3).inputs = wr (staleDone 3).platform 0x04 3 :: [] ∧ (3 : Word).getLsbD 2 = false ∧
      (3 : Word).getLsbD 1 = true ∧ (3 : Word).getLsbD 0 = true) ∧ aboutToStart.regs.done = false := by decide

/-- After reset with a register read pending. -/
def aboutToRead (off : Nat) : State := { State.reset with inputs := [rd Platform.reset off] }

/-- RegistersReadAfterReset: the first and the last register. -/
theorem test_witness_read_after_reset :
    (aboutToRead 0).rst = false ∧ (aboutToRead 0).regs = State.reset.regs ∧
    (aboutToRead 0).inputs = rd (aboutToRead 0).platform 0 :: [] ∧ 0x3C % 4 = 0 ∧ 0x3C < 0x40 ∧
    (aboutToRead 0x3C).inputs = rd (aboutToRead 0x3C).platform 0x3C :: [] := by decide

/-- SoftResetClearsRegisters: while IDLE, and with an INTERP in flight over RAM. -/
theorem test_witness_soft_reset :
    ((aboutToAbort 3).rst = false ∧ (aboutToAbort 3).inputs = wr (aboutToAbort 3).platform 0x04 5 :: [] ∧
      (5 : Word).getLsbD 2 = true) ∧
    (inFlight (aboutToAbort 3) = some (.interp 0 0 0 0, size4)) ∧
    (∀ i sz, inFlight (aboutToAbort 3) = some (i, sz) →
      ∀ a ∈ accessAddrs i (aboutToAbort 3).latch sz, (aboutToAbort 3).platform.kindOf a ≠ some .device) ∧
    inFlight State.reset = none :=
  ⟨by decide +kernel, by decide +kernel, forall_inFlight (by decide +kernel), by decide +kernel⟩

/-- HardwareResetClearsRegisters: a command in flight, `rst` asserted and released, or a register access or a waiting host
in between. -/
theorem test_witness_hardware_reset :
    (∀ i sz, inFlight (plain 3) = some (i, sz) →
      ∀ a ∈ accessAddrs i (plain 3).latch sz, (plain 3).platform.kindOf a ≠ some .device) ∧
    { plain 3 with inputs := [.assertRst, .releaseRst] }.inputs = .assertRst :: .releaseRst :: [] ∧
    { plain 3 with inputs := [.assertRst, .host (.regRead 0 32)] }.inputs = .assertRst :: .host (.regRead 0 32) :: [] ∧
    { plain 3 with inputs := [.assertRst, .wait] }.inputs = .assertRst :: .wait :: [] :=
  ⟨forall_inFlight (by decide +kernel), by decide +kernel, by decide +kernel, by decide +kernel⟩

/-- HostStoreRacesOnlyInWindows, HostLoadDrawsOnlyInDestination: the last byte of the window of D, and the byte after it. -/
theorem test_witness_host_access :
    (∀ a ∈ [0x1DB, 0x1DC], (plain 3).platform.kindOf a = some .ram) ∧
    (inFlight (plain 3) = some (.interp 0 0 0 0, size4)) ∧
    (0x1DB ∈ accessAddrs (.interp 0 0 0 0) (plain 3).latch size4 ∧
      0x1DB ∈ destAddrs (.interp 0 0 0 0) (plain 3).latch size4) ∧
    (∀ i sz, inFlight (plain 3) = some (i, sz) → 0x1DC ∉ accessAddrs i (plain 3).latch sz) ∧
    (∀ i sz, inFlight (plain 3) = some (i, sz) → 0x1DC ∉ destAddrs i (plain 3).latch sz) ∧
    { plain 3 with inputs := [.host (.memStore 0x1DB 1)] }.inputs = .host (.memStore 0x1DB 1) :: [] ∧
    { plain 3 with inputs := [.host (.memLoad 0x1DB)] }.inputs = .host (.memLoad 0x1DB) :: [] :=
  ⟨by decide +kernel, by decide +kernel, by decide +kernel, forall_inFlight (by decide +kernel),
    forall_inFlight (by decide +kernel), by decide +kernel, by decide +kernel⟩

/-- INTERP in flight on a platform that never answers, its destination at 0x200 where nothing is, a host access pending. -/
def storingNowhere (m : HostMove) : State :=
  { plain 3 with
    platform := patchy .hang, latch := { (plain 3).latch with viewD := view 0x200 8 }, inputs := [.host m] }

/-- The same two statements outside RAM: an unbacked byte of the destination in flight, and one outside every window. -/
theorem test_witness_host_access_outside_ram :
    (∀ a ∈ [0x21B, 0x21C], (patchy .hang).kindOf a = some .unbacked) ∧
    (∀ m, (storingNowhere m).regs.busy = true ∧ (storingNowhere m).inputs = .host m :: []) ∧
    inFlight (storingNowhere (.memLoad 0x21B)) = some (.interp 0 0 0 0, size4) ∧
    (0x21B ∈ accessAddrs (.interp 0 0 0 0) (storingNowhere (.memLoad 0x21B)).latch size4 ∧
      0x21B ∈ destAddrs (.interp 0 0 0 0) (storingNowhere (.memLoad 0x21B)).latch size4) ∧
    (∀ i sz, inFlight (storingNowhere (.memLoad 0x21C)) = some (i, sz) →
      0x21C ∉ accessAddrs i (storingNowhere (.memLoad 0x21C)).latch sz) ∧
    (∀ i sz, inFlight (storingNowhere (.memLoad 0x21C)) = some (i, sz) →
      0x21C ∉ destAddrs i (storingNowhere (.memLoad 0x21C)).latch sz) :=
  ⟨by decide +kernel, fun _ => ⟨rfl, rfl⟩, by decide +kernel, by decide +kernel, forall_inFlight (by decide +kernel),
    forall_inFlight (by decide +kernel)⟩

/-- INTERP, BUSY, that will end with BAD_STRIDE: D at 0x1C0 has stride 3. -/
def failing : State := { plain 3 with latch := { (plain 3).latch with viewD := view 0x1C0 3 } }

/-- The same two statements while a command that will fail its checks is BUSY: it has no window in flight (log entry 9). -/
theorem test_witness_host_access_failing :
    failing.regs.busy = true ∧ inFlight failing = none ∧ failing.platform.kindOf 0x1C0 = some .ram ∧
    { failing with inputs := [.host (.memStore 0x1C0 1)] }.inputs = .host (.memStore 0x1C0 1) :: [] ∧
    { failing with inputs := [.host (.memLoad 0x1C0)] }.inputs = .host (.memLoad 0x1C0) :: [] := by decide +kernel

/-- X2, X3 (93_implementation_defined): a store to an unbacked byte of the destination in flight is a race, a load of it
goes on; outside the windows both are refused. -/
theorem test_host_access_outside_ram :
    step (storingNowhere (.memStore 0x21B 1)) = .fault .race ∧
    step (storingNowhere (.memStore 0x21C 1)) = .refused .hostAccessOutsideRam ∧
    step (storingNowhere (.memLoad 0x21C)) = .refused .hostAccessOutsideRam :=
  ⟨answer_inj (by decide +kernel), answer_inj (by decide +kernel), answer_inj (by decide +kernel)⟩

/-- The poll of a waiting host is not answered while `rst` is asserted (70_reset_and_hazards R241; log entry 14). -/
theorem test_wait_during_reset :
    step { State.reset with rst := true, inputs := [.wait] } = .refused .accessDuringReset :=
  answer_inj (by decide +kernel)

end Sys2Proof.Tests
end

section
/-!
The next states of a command, said of the register file and of pixel memory, and what every command leaves as it was
(10_state R45, 60_exceptions R202 to R206).
-/

namespace Sys2Proof.Proofs

open Sys2Proof.Machine

/-- What a command does to the register file: an error completion, a successful one, or nothing where the platform never
answers. -/
theorem exec_regs {i : Instr} {s t : State} (h : exec i s = .next t) :
    (∃ e a, (e ≠ .busErr → a = 0) ∧ t.regs = (completeErr e a s).regs) ∨
    (∃ sz, CleanLaunch i sz s ∧ t.regs = (completeOk (resultsOf i sz s) s).regs) ∨
    (t = s ∧ s.platform.busErrResponse = .hang ∧ ∃ sz, LegalConfig i s.latch sz ∧
      ∃ a ∈ accessAddrs i s.latch sz, s.platform.kindOf a = some .unbacked) := by
  rcases exec_next h with ⟨e, -, rfl⟩ | ⟨sz, a, -, -, rfl⟩ | hang | ⟨sz, hc, rfl⟩
  · exact .inl ⟨e, 0, fun _ => rfl, rfl⟩
  · exact .inl ⟨.busErr, BitVec.ofNat 32 a, fun h => absurd rfl h, by simp⟩
  · exact .inr (.inr hang)
  · exact .inr (.inl ⟨sz, hc, commandBody_regs i sz s⟩)

/-- Outside the register file a command changes only pixel memory, the hidden state and the counter of free values. -/
theorem exec_frame {i : Instr} {s t : State} (h : exec i s = .next t) :
    t.latch = s.latch ∧ t.rst = s.rst ∧ t.platform = s.platform ∧ t.inputs = s.inputs ∧
      t.responses = s.responses := by
  rcases exec_next h with ⟨e, -, rfl⟩ | ⟨sz, a, -, -, rfl⟩ | ⟨rfl, -⟩ | ⟨sz, -, rfl⟩
  · simp
  · simp
  · simp
  · rw [commandBody_eq]; simp

/-- No command changes IRQ_EN, CMD or a view register. -/
theorem exec_config_kept {i : Instr} {s t : State} (h : exec i s = .next t) :
    t.regs.irqEn = s.regs.irqEn ∧ t.regs.cmd = s.regs.cmd ∧ t.regs.viewA = s.regs.viewA ∧
      t.regs.viewB = s.regs.viewB ∧ t.regs.viewS = s.regs.viewS ∧ t.regs.viewD = s.regs.viewD := by
  rcases exec_regs h with ⟨e, a, -, hr⟩ | ⟨sz, -, hr⟩ | ⟨rfl, -⟩
  · simp [hr]
  · simp [hr]
  · simp

/-- A command changes no byte outside its destination window (20_memory R66). -/
theorem exec_read_other {i : Instr} {s t : State} {a : Nat} (h : exec i s = .next t)
    (ha : ∀ sz, LegalConfig i s.latch sz → a ∉ destAddrs i s.latch sz) :
    Memory.read t.mem a = Memory.read s.mem a := by
  rcases exec_next h with ⟨e, -, rfl⟩ | ⟨sz, b, hl, -, rfl⟩ | ⟨rfl, -⟩ | ⟨sz, ⟨hl, -⟩, rfl⟩
  · rfl
  · exact drawBytes_read_other _ _ (ha sz hl)
  · rfl
  · exact commandBody_read_other (ha sz hl)

/-- The result registers a command does not write keep their values, however it ends (10_state R45, 60_exceptions
R206). -/
theorem exec_results_kept {i : Instr} {s t : State} (h : exec i s = .next t) :
    ((∀ sz, (resultsOf i sz s).sse = none) → t.regs.resSse = s.regs.resSse) ∧
    ((∀ sz, (resultsOf i sz s).var = none) → t.regs.resVar = s.regs.resVar) ∧
    ((∀ sz, (resultsOf i sz s).sum = none) → t.regs.resSum = s.regs.resSum) := by
  rcases exec_regs h with ⟨e, a, -, hr⟩ | ⟨sz, -, hr⟩ | ⟨rfl, -⟩
  · simp [hr]
  · rw [hr]
    exact ⟨fun hn => by simp [hn sz], fun hn => by simp [hn sz], fun hn => by simp [hn sz]⟩
  · simp

/-- A command that stores no block has no destination (20_memory R61). -/
theorem destAddrs_of_storedBlock_none {i : Instr} {s : State} (h : storedBlock i s = none) (l : Latch) (sz : Size) :
    destAddrs i l sz = [] := by
  cases i with
  | interp => cases h
  | interpAvg => cases h
  | sse => rfl
  | var => rfl
  | subpixVar => rfl
  | subpixAvgVar => rfl

/-- A command that stores no block leaves pixel memory as it was, however it ends (20_memory R61). -/
theorem exec_mem_of_storedBlock_none {i : Instr} {s t : State} (h : exec i s = .next t) (hb : storedBlock i s = none) :
    t.mem = s.mem := by
  rcases exec_next h with ⟨e, -, rfl⟩ | ⟨sz, a, -, -, rfl⟩ | ⟨rfl, -⟩ | ⟨sz, -, rfl⟩
  · rfl
  · rw [destAddrs_of_storedBlock_none hb]; rfl
  · rfl
  · simp [commandBody_mem, memAfter, hb]

/-- Settles O36: each of the two completions sets DONE, and only a platform that never answers leaves the command
running. -/
theorem everyEndSetsDone : Obligations.EveryEndSetsDone := by
  intro i s t h
  rcases exec_regs h with ⟨e, a, -, hr⟩ | ⟨sz, -, hr⟩ | hang
  · exact .inl (by simp [State.irq, hr])
  · exact .inl (by simp [State.irq, hr])
  · exact .inr hang

/-- Settles O25: none of the four stores a block, and SSE delivers no variance. -/
theorem statisticsCommandsFrame : Obligations.StatisticsCommandsFrame := by
  intro i s t h hi
  have hb : storedBlock i s = none := by
    rcases hi with ⟨_, _, rfl⟩ | ⟨_, _, rfl⟩ | ⟨_, _, _, _, rfl⟩ | ⟨_, _, _, _, rfl⟩ <;> rfl
  have hm := exec_mem_of_storedBlock_none h hb
  obtain ⟨hlatch, hrest⟩ := exec_frame h
  obtain ⟨hirq, hcmd, ha, hbv, hs, hd⟩ := exec_config_kept h
  refine ⟨fun a => by rw [hm], hm, hlatch, hirq, hcmd, ha, hbv, hs, hd, ?_, hrest⟩
  rintro ⟨wc, hc, rfl⟩
  exact (exec_results_kept h).2.1 fun _ => rfl

/-- Settles O32: neither command delivers a result, and the addresses it stores to are the window of D at the decoded
size. -/
theorem interpolationCommandsFrame : Obligations.InterpolationCommandsFrame := by
  intro i s t h hi
  obtain ⟨hlatch, hrest⟩ := exec_frame h
  obtain ⟨hirq, hcmd, hva, hvb, hvs, hvd⟩ := exec_config_kept h
  obtain ⟨hsse, hvar, hsum⟩ := exec_results_kept h
  have hres : ∀ sz, resultsOf i sz s = {} := by
    rcases hi with ⟨_, _, _, _, rfl⟩ | ⟨_, _, _, _, rfl⟩ <;> exact fun _ => rfl
  refine ⟨fun a ha => ?_, hsse fun sz => by rw [hres], hvar fun sz => by rw [hres], hsum fun sz => by rw [hres],
    hlatch, hirq, hcmd, hva, hvb, hvs, hvd, hrest⟩
  have hread : Memory.read t.mem a = Memory.read s.mem a := by
    refine exec_read_other h fun sz ⟨hsz, _⟩ hd => ?_
    obtain ⟨-, r, c, hr, hc, heq⟩ := mem_destAddrs_cases hd
    exact ha sz hsz r hr c hc heq
  simp only [Memory.byteAt, hread]

end Sys2Proof.Proofs
end

section
/-!
The invariant: which register files it admits, and that every step of every agent keeps it (10_state R30, R32, R43,
R51, R52).
-/

namespace Sys2Proof.Proofs

open Sys2Proof.Machine

/-- What the invariant says of the register file alone. -/
def RegsInv (r : Regs) : Prop :=
  (r.err = false ↔ r.errCode = 0) ∧ r.errCode.toNat ≤ 6 ∧ (r.busy = true → r.done = false ∧ r.err = false) ∧
    (r.errCode ≠ 6 → r.errAddr = 0)

theorem inv_iff {s : State} :
    s.Inv ↔ Memory.wf s.mem ∧ RegsInv s.regs ∧ (s.hidden.t = [] ∧ s.hidden.x = []) ∧
      (s.rst = true → s.regs = Regs.reset) := by
  simp only [State.Inv, RegsInv, and_assoc]

theorem regsInv_reset : RegsInv Regs.reset := by
  unfold RegsInv; decide

/-- An error completion meets the invariant whatever the registers held (60_exceptions R206). -/
theorem regsInv_completeErr {e : CmdError} {a : Word} (s : State) (h : e ≠ .busErr → a = 0) :
    RegsInv (completeErr e a s).regs := by
  cases e <;> simp_all [RegsInv, errorCode]

theorem regsInv_completeOk {s : State} (w : ResultWrites) (h : RegsInv s.regs) : RegsInv (completeOk w s).regs := by
  obtain ⟨hz, hle, -, ha⟩ := h
  exact ⟨hz, hle, by simp, ha⟩

/-- An accepted START meets the invariant whatever the registers held (10_state R27). -/
theorem regsInv_acceptStart (s : State) : RegsInv (acceptStart s).regs := by simp [RegsInv]

theorem regsInv_ackStatus {r : Regs} (v : Word) (h : RegsInv r) : RegsInv (ackStatus v r) := by
  obtain ⟨hz, hle, hb, ha⟩ := h
  unfold RegsInv ackStatus
  cases v.getLsbD 1 <;> cases v.getLsbD 2 <;> simp_all

/-- A reset meets the invariant from any state whose memory is in canonical form. -/
theorem inv_resetBlock {s : State} (h : Memory.wf s.mem) : (resetBlock s).Inv :=
  inv_iff.mpr ⟨h, regsInv_reset, ⟨rfl, rfl⟩, fun _ => rfl⟩

theorem inv_resetBlock_setRst {s : State} (b : Bool) (h : Memory.wf s.mem) : ((resetBlock s).setRst b).Inv :=
  inv_iff.mpr ⟨h, regsInv_reset, ⟨rfl, rfl⟩, fun _ => rfl⟩

/-- A new register file, while `rst` is released. -/
theorem inv_setRegs {s : State} {r : Regs} (h : s.Inv) (hr : s.rst = false) (hi : RegsInv r) : (s.setRegs r).Inv := by
  obtain ⟨hm, -, hb, -⟩ := inv_iff.mp h
  exact inv_iff.mpr ⟨hm, hi, hb, by simp [hr]⟩

/-- While BUSY `rst` is released: the registers do not hold their reset values. -/
theorem rst_eq_false_of_busy {s : State} (h : s.Inv) (hb : s.regs.busy = true) : s.rst = false := by
  obtain ⟨-, -, -, hr⟩ := inv_iff.mp h
  refine Bool.eq_false_of_not_eq_true fun ht => ?_
  rw [hr ht] at hb
  cases hb

theorem exec_keeps_buffers {i : Instr} {s t : State} (h : exec i s = .next t) (hb : s.hidden.t = [] ∧ s.hidden.x = []) :
    t.hidden.t = [] ∧ t.hidden.x = [] := by
  rcases exec_next h with ⟨e, -, rfl⟩ | ⟨sz, a, -, -, rfl⟩ | ⟨rfl, -⟩ | ⟨sz, -, rfl⟩
  · exact hb
  · simpa using hb
  · exact hb
  · exact commandBody_buffers hb

theorem exec_keeps_wf {i : Instr} {s t : State} (h : exec i s = .next t) (hm : Memory.wf s.mem) : Memory.wf t.mem := by
  rcases exec_next h with ⟨e, -, rfl⟩ | ⟨sz, a, hl, -, rfl⟩ | ⟨rfl, -⟩ | ⟨sz, ⟨hl, -⟩, rfl⟩
  · exact hm
  · exact drawBytes_wf _ _ hm fun a ha => hl.access_lt (mem_accessAddrs_of_dest ha)
  · exact hm
  · exact commandBody_wf hl hm

theorem exec_keeps_regsInv {i : Instr} {s t : State} (h : exec i s = .next t) (hr : RegsInv s.regs) :
    RegsInv t.regs := by
  rcases exec_regs h with ⟨e, a, ha, ht⟩ | ⟨sz, -, ht⟩ | ⟨rfl, -⟩
  · exact ht ▸ regsInv_completeErr s ha
  · exact ht ▸ regsInv_completeOk _ hr
  · exact hr

/-- A command keeps the invariant, started where `rst` is released. -/
theorem exec_keeps_inv {i : Instr} {s t : State} (h : exec i s = .next t) (hs : s.Inv) (hr : s.rst = false) :
    t.Inv := by
  obtain ⟨hm, hreg, hb, -⟩ := inv_iff.mp hs
  obtain ⟨-, hrst, -⟩ := exec_frame h
  exact inv_iff.mpr ⟨exec_keeps_wf h hm, exec_keeps_regsInv h hreg, exec_keeps_buffers h hb, by simp [hrst, hr]⟩

/-- An abort keeps the canonical form of pixel memory. -/
theorem abortDraws_keeps_wf {s : State} (h : Memory.wf s.mem) : Memory.wf (abortDraws s).mem := by
  obtain ⟨-, -, hwf⟩ := abortDraws_spec s
  exact hwf h

theorem rejectWord_keeps_inv {s : State} (e : WordError) (hs : s.Inv) (hr : s.rst = false) : (rejectWord e s).Inv := by
  rw [rejectWord_eq]
  exact inv_setRegs hs hr (regsInv_completeErr s fun _ => rfl)

/-- A write through the register port keeps the invariant. -/
theorem writeReg_keeps_inv {g : Reg} {v : Word} {s t : State} (h : writeReg g v s = .next t) (hs : s.Inv)
    (hr : s.rst = false) : t.Inv := by
  obtain ⟨hm, hreg, hb, -⟩ := inv_iff.mp hs
  rcases writeReg_next h with rfl | rfl | ⟨-, c, a, b, p, d, rfl⟩ | rfl | ⟨-, -, -, -, rfl⟩ | ⟨-, -, rfl⟩
  · exact hs
  · exact inv_setRegs hs hr (regsInv_ackStatus v hreg)
  · exact inv_setRegs hs hr hreg
  · exact inv_setRegs hs hr hreg
  · exact inv_iff.mpr ⟨hm, regsInv_acceptStart _, hb, by simp [hr]⟩
  · exact inv_resetBlock (abortDraws_keeps_wf hm)

/-- An access of the host keeps the invariant. -/
theorem hostMove_keeps_inv {m : HostMove} {s t : State} (h : hostMove m s = .next t) (hs : s.Inv) : t.Inv := by
  rcases hostMove_next h with ⟨_, v, g, -, hr, -, hw⟩ | ⟨x, n, rfl⟩ | ⟨addr, v, -, rfl⟩
  · exact writeReg_keeps_inv hw hs hr
  · exact hs
  · obtain ⟨hm, hrest⟩ := hs
    exact ⟨Memory.wf_write hm addr.isLt v, hrest⟩

theorem releaseReset_keeps_inv {s : State} (h : s.Inv) : (releaseReset s).Inv := by
  unfold releaseReset
  split
  · exact inv_resetBlock_setRst false h.1
  · exact h

/-- Settles O11: the invariant does not look at the pending moves, and each agent's move keeps it. -/
theorem stepKeepsInvariant : Obligations.StepKeepsInvariant := by
  intro s t hs h
  have hs' : ∀ is, (s.setInputs is).Inv := fun _ => hs
  obtain ⟨s', is, rfl, ⟨-, ⟨-, rfl⟩ | ⟨hb, e, -, rfl⟩ | ⟨hb, i, -, hx⟩⟩ | ⟨m, -, hm⟩ | ⟨-, rfl⟩ | ⟨-, rfl⟩⟩ :=
    step_next h
  · exact hs' is
  · exact rejectWord_keeps_inv e (hs' is) (rst_eq_false_of_busy (hs' is) hb)
  · exact exec_keeps_inv hx (hs' is) (rst_eq_false_of_busy (hs' is) hb)
  · exact hostMove_keeps_inv hm (hs' is)
  · exact inv_resetBlock_setRst true (abortDraws_keeps_wf hs.1)
  · exact releaseReset_keeps_inv (hs' is)

/-- Settles O10: nothing is stored at reset, and the register file and the buffers hold their reset values. -/
theorem resetMeetsInvariant : Obligations.ResetMeetsInvariant :=
  inv_iff.mpr ⟨Memory.wf_nil, regsInv_reset, ⟨rfl, rfl⟩, fun _ => rfl⟩

end Sys2Proof.Proofs
end

section
/-!
What a step can do to the register file, said once, and the two statements about BUSY and the result registers that
follow from it (10_state R27, R30, R31, R44).
-/

namespace Sys2Proof.Proofs

open Sys2Proof.Machine

/-- Only the offset of CTRL reaches CTRL (10_state R22). -/
theorem eq_four_of_regAt_ctrl {off : Nat} (h : regAt off = some .ctrl) : off = 4 := by
  obtain ⟨-, hlt⟩ := regAt_some h
  have key : ∀ k < 0x40, regAt k = some .ctrl → k = 4 := by decide
  exact key off hlt h

/-- The pending move is a host write of `v` to CTRL. -/
def WritesCtrl (s : State) (v : Word) : Prop :=
  ∃ addr rest, s.inputs = .host (.regWrite addr 32 v) :: rest ∧ (addr - s.platform.regBase).toNat = 4

/-- The pending move is the reset input's. -/
def MovesRst (s : State) : Prop := ∃ rest, s.inputs = .assertRst :: rest ∨ s.inputs = .releaseRst :: rest

/-- What a register write can do to the register file. -/
theorem writeReg_regs {g : Reg} {v : Word} {s t : State} (h : writeReg g v s = .next t) :
    (t.regs.busy = s.regs.busy ∧ t.regs.resSse = s.regs.resSse ∧ t.regs.resVar = s.regs.resVar ∧
      t.regs.resSum = s.regs.resSum) ∨
    (g = .ctrl ∧ v.getLsbD 0 = true ∧ v.getLsbD 2 = false ∧ s.regs.busy = false ∧
      t.regs = (acceptStart (s.setRegs { s.regs with irqEn := v.getLsbD 1 })).regs) ∨
    (g = .ctrl ∧ v.getLsbD 2 = true ∧ t.regs = Regs.reset) := by
  rcases writeReg_next h with rfl | rfl | ⟨-, c, a, b, p, d, rfl⟩ | rfl | ⟨hg, h0, h2, hb, rfl⟩ | ⟨hg, h2, rfl⟩
  · exact .inl ⟨rfl, rfl, rfl, rfl⟩
  · exact .inl ⟨rfl, rfl, rfl, rfl⟩
  · exact .inl ⟨rfl, rfl, rfl, rfl⟩
  · exact .inl ⟨rfl, rfl, rfl, rfl⟩
  · exact .inr (.inl ⟨hg, h0, h2, hb, rfl⟩)
  · exact .inr (.inr ⟨hg, h2, rfl⟩)

/-- What the release of `rst` does to the register file. -/
theorem releaseReset_regs (s : State) : (releaseReset s).regs = s.regs ∨ (releaseReset s).regs = Regs.reset := by
  unfold releaseReset
  split
  · exact .inr rfl
  · exact .inl rfl

/-- Everything a step can do to BUSY and to the result registers: keep them, complete a command on the engine's turn,
accept a START, or reset. -/
theorem step_regs {s t : State} (h : step s = .next t) :
    (t.regs.busy = s.regs.busy ∧ t.regs.resSse = s.regs.resSse ∧ t.regs.resVar = s.regs.resVar ∧
      t.regs.resSum = s.regs.resSum) ∨
    (s.EngineMoves ∧ s.regs.busy = true ∧
      ((∃ e a, t.regs = (completeErr e a s).regs) ∨ ∃ w, t.regs = (completeOk w s).regs)) ∨
    (s.regs.busy = false ∧ ∃ v, WritesCtrl s v ∧ v.getLsbD 0 = true ∧ v.getLsbD 2 = false ∧
      t.regs = (acceptStart (s.setRegs { s.regs with irqEn := v.getLsbD 1 })).regs) ∨
    (((∃ v, WritesCtrl s v ∧ v.getLsbD 2 = true) ∨ MovesRst s) ∧ t.regs = Regs.reset) := by
  obtain ⟨s', is, rfl, ⟨hE, ⟨-, rfl⟩ | ⟨hb, e, -, rfl⟩ | ⟨hb, i, -, hx⟩⟩ | ⟨m, hi, hm⟩ | ⟨hi, rfl⟩ | ⟨hi, rfl⟩⟩ :=
    step_next h
  case inl.inl => exact .inl ⟨rfl, rfl, rfl, rfl⟩
  case inl.inr.inl =>
    rw [rejectWord_eq]
    exact .inr (.inl ⟨hE, hb, .inl ⟨_, 0, rfl⟩⟩)
  case inl.inr.inr =>
    rcases exec_regs hx with ⟨e, a, -, ht⟩ | ⟨sz, -, ht⟩ | ⟨rfl, -⟩
    · exact .inr (.inl ⟨hE, hb, .inl ⟨e, a, ht⟩⟩)
    · exact .inr (.inl ⟨hE, hb, .inr ⟨_, ht⟩⟩)
    · exact .inl ⟨rfl, rfl, rfl, rfl⟩
  case inr.inl =>
    rcases hostMove_next hm with ⟨addr, v, g, rfl, -, hg, hw⟩ | ⟨x, n, rfl⟩ | ⟨addr, v, -, rfl⟩
    · have hctrl : g = .ctrl → WritesCtrl s v := fun e => ⟨addr, is, hi, eq_four_of_regAt_ctrl (e ▸ hg)⟩
      rcases writeReg_regs hw with hk | ⟨e, h0, h2, hb, ht⟩ | ⟨e, h2, ht⟩
      · exact .inl hk
      · exact .inr (.inr (.inl ⟨hb, v, hctrl e, h0, h2, ht⟩))
      · exact .inr (.inr (.inr ⟨.inl ⟨v, hctrl e, h2⟩, ht⟩))
    · exact .inl ⟨rfl, rfl, rfl, rfl⟩
    · exact .inl ⟨rfl, rfl, rfl, rfl⟩
  case inr.inr.inl => exact .inr (.inr (.inr ⟨.inr ⟨is, .inl hi⟩, rfl⟩))
  case inr.inr.inr =>
    rcases releaseReset_regs (s.setInputs is) with ht | ht
    · exact .inl (by simp [ht])
    · exact .inr (.inr (.inr ⟨.inr ⟨is, .inr hi⟩, ht⟩))

/-- Settles O12: an accepted START alone sets BUSY, a completion or a reset alone clears it. -/
theorem busyChangesOnlyAsStated : Obligations.BusyChangesOnlyAsStated := by
  intro s t h
  rcases step_regs h with ⟨hk, -⟩ | ⟨hE, hb, hc⟩ | ⟨hb, v, ⟨addr, rest, hi, ha⟩, h0, h2, ht⟩ | ⟨hw, ht⟩
  · rw [hk]
    exact ⟨fun h0 h1 => by simp [h0] at h1, fun h1 h0 => by simp [h0] at h1⟩
  · have hdone : t.regs.busy = false ∧ t.regs.done = true := by
      rcases hc with ⟨e, a, ht⟩ | ⟨w, ht⟩ <;> simp [ht]
    exact ⟨by simp [hb], fun _ _ => .inl ⟨hE, hdone.2⟩⟩
  · exact ⟨fun _ _ => ⟨addr, v, rest, hi, ha, h0, h2⟩, by simp [hb]⟩
  · refine ⟨by simp [ht, Regs.reset], fun _ _ => .inr ?_⟩
    rcases hw with ⟨v, ⟨addr, rest, hi, ha⟩, h2⟩ | hr
    · exact .inl ⟨⟨addr, v, rest, hi, ha, h2⟩, ht⟩
    · exact .inr ⟨hr, ht⟩

/-- Settles O13: of the moves that change a result register all but the reset complete a command without error, and by
the invariant ERR is 0 while BUSY. -/
theorem resultsChangeOnlyAtSuccess : Obligations.ResultsChangeOnlyAtSuccess := by
  intro s t hs h hne
  rcases step_regs h with ⟨-, hsse, hvar, hsum⟩ | ⟨-, hb, hc⟩ | ⟨-, v, -, -, -, ht⟩ | ⟨-, ht⟩
  · simp [hsse, hvar, hsum] at hne
  · rcases hc with ⟨e, a, ht⟩ | ⟨w, ht⟩
    · simp [ht] at hne
    · obtain ⟨-, ⟨-, -, hbusy, -⟩, -⟩ := inv_iff.mp hs
      exact .inr ⟨hb, by simp [ht], by simp [ht], by simp [ht, (hbusy hb).2]⟩
  · simp [ht] at hne
  · exact .inl ht

end Sys2Proof.Proofs
end

section
/-!
A step on each kind of turn, and the register port: what one read and one write of a register do (10_state R22 to R44).
-/

namespace Sys2Proof.Proofs

open Sys2Proof.Machine

/-- The engine's move while BUSY, the latched word a command. -/
theorem engineMove_busy {s : State} {i : Instr} (hb : s.regs.busy = true) (hd : decodeWord s.latch.cmd = .ok i) :
    engineMove s = exec i s := by
  simp only [engineMove, fetchWord, hb, hd, if_true]

/-- Settles O7: on each of the engine's turns the step is the engine's move. -/
theorem stepRunsLatchedCommand : Obligations.StepRunsLatchedCommand := by
  intro s i hb hd
  refine ⟨fun hi => ?_, fun rest hi => ?_, fun rest hr hi => ?_⟩
  · have hT : takeTurn s = (.engine, s) := by simp [takeTurn, hi]
    simpa only [step, hT] using engineMove_busy hb hd
  · have hT : takeTurn s = (.engine, s.setInputs rest) := by simp [takeTurn, hi]
    simp only [step, hT]
    exact engineMove_busy (s := s.setInputs rest) hb hd
  · have hT : takeTurn s = (.engine, s) := by simp [takeTurn, hi, hr, hb]
    simpa only [step, hT] using engineMove_busy hb hd

/-- On the host's turn a step is the host's access. -/
theorem step_host {s : State} {m : HostMove} {rest : List Input} (hi : s.inputs = .host m :: rest) :
    step s = hostMove m (s.setInputs rest) := by
  have hT : takeTurn s = (.host m, s.setInputs rest) := by simp [takeTurn, hi]
  simp only [step, hT]

/-- An offset that reaches a register is small enough to be added to REG_BASE. -/
theorem regAccess_of_regAt (p : Platform) {off : Nat} {g : Reg} (hg : regAt off = some g) :
    regAccess p (p.regBase + BitVec.ofNat 32 off) 32 = some g := by
  obtain ⟨-, hlt⟩ := regAt_some hg
  rw [regAccess_offset p (by omega), hg]

/-- A 32-bit write at the offset of a register is the write of that register. -/
theorem step_wr {s : State} {off : Nat} {v : Word} {rest : List Input} {g : Reg} (hg : regAt off = some g)
    (hr : s.rst = false) (hi : s.inputs = wr s.platform off v :: rest) :
    step s = writeReg g v (s.setInputs rest) := by
  rw [step_host hi]
  simp [hostMove, hostRegWrite, hr, regAccess_of_regAt s.platform hg]

/-- A 32-bit read at the offset of a register gets back that register's value. -/
theorem step_rd {s : State} {off : Nat} {rest : List Input} {g : Reg} {v : Word} (hg : regAt off = some g)
    (hv : readReg g s.regs = v) (hr : s.rst = false) (hi : s.inputs = rd s.platform off :: rest) :
    step s = .next ((s.setInputs rest).respond (.word v)) := by
  rw [step_host hi]
  simp [hostMove, hostRegRead, hr, regAccess_of_regAt s.platform hg, hv]

/-- A word of CTRL as a number (10_state R28). -/
theorem ctrlWord_eq (r : Regs) : ctrlWord r = if r.irqEn then 2 else 0 := by
  unfold ctrlWord
  cases r.irqEn <;> rfl

/-- A word of STATUS as a number: each flag at its bit (10_state R29). -/
theorem statusWord_eq (r : Regs) :
    statusWord r = BitVec.ofNat 32 (r.busy.toNat + 2 * r.done.toNat + 4 * r.err.toNat + 16 * r.errCode.toNat) := by
  have key : ∀ (b d e : Bool) (c : BitVec 4),
      (0 : BitVec 24) ++ c ++ (0 : BitVec 1) ++ bit e ++ bit d ++ bit b =
        BitVec.ofNat 32 (b.toNat + 2 * d.toNat + 4 * e.toNat + 16 * c.toNat) := by decide
  exact key r.busy r.done r.err r.errCode

/-- Settles O45: each offset reaches its register, whose value the host gets back. -/
theorem registerReadValues : Obligations.RegisterReadValues := by
  intro s rest hr
  have read : ∀ {off : Nat} {v : Word} (g : Reg), regAt off = some g → readReg g s.regs = v →
      s.inputs = rd s.platform off :: rest → step s = .next ((s.setInputs rest).respond (.word v)) :=
    fun _ hg hv => step_rd hg hv hr
  simp only [List.forall_mem_cons]
  exact ⟨read .id rfl rfl, read .ctrl rfl (ctrlWord_eq _), read .status rfl (statusWord_eq _), read .cmd rfl rfl,
    read .aAddr rfl rfl, read .aStride rfl rfl, read .bAddr rfl rfl, read .bStride rfl rfl, read .sAddr rfl rfl,
    read .sStride rfl rfl, read .dAddr rfl rfl, read .dStride rfl rfl, read .resSse rfl rfl, read .resVar rfl rfl,
    read .resSum rfl rfl, read .errAddr rfl rfl, List.forall_mem_nil _⟩

/-- Settles O46: no such access reaches a register. -/
theorem badRegisterAccessRefused : Obligations.BadRegisterAccessRefused := by
  intro s addr v width rest hr hbad hi
  have hnone : regAccess s.platform addr width = none := by
    unfold regAccess
    split
    · cases hg : regAt (addr - s.platform.regBase).toNat with
      | none => rfl
      | some g =>
        obtain ⟨hal, hlt⟩ := regAt_some hg
        omega
    · rfl
  rcases hi with hi | hi
  · simp [step_host hi, hostMove, hostRegRead, hr, hnone]
  · simp [step_host hi, hostMove, hostRegWrite, hr, hnone]

/-- A write of CTRL that starts a command (10_state R27). -/
theorem writeCtrl_start {s : State} {v : Word} (h2 : v.getLsbD 2 = false) (h0 : v.getLsbD 0 = true)
    (hb : s.regs.busy = false) :
    writeCtrl v s = .next (acceptStart (s.setRegs { s.regs with irqEn := v.getLsbD 1 })) := by
  simp only [writeCtrl, h2, h0, hb]; rfl

/-- A write of CTRL that neither resets nor starts sets IRQ_EN only (10_state R27). -/
theorem writeCtrl_irqEn {s : State} {v : Word} (h2 : v.getLsbD 2 = false)
    (h : v.getLsbD 0 = false ∨ s.regs.busy = true) :
    writeCtrl v s = .next (s.setRegs { s.regs with irqEn := v.getLsbD 1 }) := by
  have hn : (v.getLsbD 0 && !s.regs.busy) = false := by
    rcases h with h | h <;> simp [-BitVec.getLsbD_eq_getElem, h]
  simp only [writeCtrl, h2, hn]; rfl

/-- Settles O47: the write is an accepted START or sets IRQ_EN alone. -/
theorem ctrlWriteStarts : Obligations.CtrlWriteStarts := by
  intro s v rest hr hi h2
  have hstep := step_wr (g := .ctrl) rfl hr hi
  refine ⟨fun h0 hb => ?_, fun h => ?_⟩
  · exact hstep.trans (writeCtrl_start h2 h0 hb)
  · exact hstep.trans (writeCtrl_irqEn h2 h)

/-- Settles O48: a START in the same write clears DONE, and without one DONE stays as it was. -/
theorem staleDoneRaisesIrq : Obligations.StaleDoneRaisesIrq := by
  intro s v rest hr hi h2 h1 hb
  obtain ⟨hstart, hkeep⟩ := ctrlWriteStarts s v rest hr hi h2
  cases h0 : v.getLsbD 0 with
  | true => exact ⟨_, hstart h0 hb, h1, by simp, by simp [State.irq], by simp [State.irq]⟩
  | false =>
    refine ⟨_, hkeep (.inl h0), h1, fun hd _ => ?_, by simp, fun hd => ?_⟩
    · exact (Bool.and_eq_true _ _).mpr ⟨h1, hd⟩
    · exact (congrArg _ hd).trans (Bool.and_false _)

/-- While BUSY there is nothing to acknowledge: DONE and ERR are 0 (10_state R33). -/
theorem ackStatus_busy {r : Regs} (v : Word) (h : RegsInv r) (hb : r.busy = true) : ackStatus v r = r := by
  obtain ⟨hz, -, hbusy, ha⟩ := h
  obtain ⟨hd, he⟩ := hbusy hb
  have hc := hz.mp he
  have ha := ha (by simp [hc])
  cases r
  simp_all [ackStatus]

/-- Settles O49: a write of STATUS is the acknowledgement. -/
theorem statusWriteAcknowledges : Obligations.StatusWriteAcknowledges := by
  intro s v rest hr hi
  have hstep : step s = .next ((s.setInputs rest).setRegs (ackStatus v s.regs)) := step_wr (g := .status) rfl hr hi
  refine ⟨hstep, fun hs hb => ?_⟩
  obtain ⟨-, hreg, -⟩ := inv_iff.mp hs
  rw [hstep, ackStatus_busy v hreg hb]
  rfl

/-- While IDLE a configuration write takes effect (10_state R34 to R38). -/
theorem writeConfig_idle {s : State} (r : Regs) (hb : s.regs.busy = false) : writeConfig r s = s.setRegs r := by
  simp [writeConfig, hb]

/-- A configuration register written while IDLE holds the value and reads back as it. -/
theorem step_wr_config {s : State} {off : Nat} {v : Word} {r : Regs} {rest : List Input} (g : Reg)
    (hg : regAt off = some g) (hw : ∀ is, writeReg g v (s.setInputs is) = .next (writeConfig r (s.setInputs is)))
    (hv : readReg g r = v) (hr : s.rst = false) (hb : s.regs.busy = false)
    (hi : s.inputs = wr s.platform off v :: rest) :
    step s = .next ((s.setInputs rest).setRegs r) ∧
      ∀ more, rest = rd s.platform off :: more →
        step ((s.setInputs rest).setRegs r) = .next (((s.setInputs more).setRegs r).respond (.word v)) := by
  refine ⟨?_, fun more hm => step_rd (s := (s.setInputs rest).setRegs r) hg hv hr hm⟩
  rw [step_wr hg hr hi, hw, writeConfig_idle (s := s.setInputs rest) r hb]

/-- Settles O50: each offset reaches its register, which takes the value while IDLE. -/
theorem configReadsBackAsWritten : Obligations.ConfigReadsBackAsWritten := by
  intro s v rest hr hb
  simp only [List.forall_mem_cons]
  exact ⟨step_wr_config .cmd rfl (fun _ => rfl) rfl hr hb,
    step_wr_config .aAddr rfl (fun _ => rfl) rfl hr hb,
    step_wr_config .aStride rfl (fun _ => rfl) rfl hr hb,
    step_wr_config .bAddr rfl (fun _ => rfl) rfl hr hb,
    step_wr_config .bStride rfl (fun _ => rfl) rfl hr hb,
    step_wr_config .sAddr rfl (fun _ => rfl) rfl hr hb,
    step_wr_config .sStride rfl (fun _ => rfl) rfl hr hb,
    step_wr_config .dAddr rfl (fun _ => rfl) rfl hr hb,
    step_wr_config .dStride rfl (fun _ => rfl) rfl hr hb, List.forall_mem_nil _⟩

/-- Settles O52: each of the five offsets reaches a register whose write changes nothing. -/
theorem readOnlyWritesIgnored : Obligations.ReadOnlyWritesIgnored := by
  intro s v rest off hr hoff hi
  have key : ∀ k ∈ [0x00, 0x30, 0x34, 0x38, 0x3C], ∃ g, regAt k = some g ∧ ∀ u, writeReg g v u = .next u := by
    simp only [List.forall_mem_cons]
    exact ⟨⟨.id, rfl, fun _ => rfl⟩, ⟨.resSse, rfl, fun _ => rfl⟩, ⟨.resVar, rfl, fun _ => rfl⟩,
      ⟨.resSum, rfl, fun _ => rfl⟩, ⟨.errAddr, rfl, fun _ => rfl⟩, List.forall_mem_nil _⟩
  obtain ⟨g, hg, hw⟩ := key off hoff
  exact (step_wr hg hr hi).trans (hw _)

/-- The sixteen offsets and the values there at reset (10_state R56). -/
theorem readReg_reset {off : Nat} (hal : off % 4 = 0) (hlt : off < 0x40) :
    ∃ g, regAt off = some g ∧ readReg g Regs.reset = if off = 0 then 0x53534531 else 0 := by
  have key : ∀ k < 0x40, k % 4 = 0 →
      (regAt k).map (readReg · Regs.reset) = some (if k = 0 then 0x53534531 else 0) := by decide
  simpa [Option.map_eq_some_iff] using key off hlt hal

/-- Settles O53: every offset reaches a register, and all but ID hold 0. -/
theorem registersReadAfterReset : Obligations.RegistersReadAfterReset := by
  intro s rest off hr hregs hal hlt hi
  obtain ⟨g, hg, hv⟩ := readReg_reset hal hlt
  have hregs : s.regs = Regs.reset := hregs
  refine ⟨_, step_rd hg (hregs ▸ hv) hr hi, rfl, rfl, ?_⟩
  simp [State.irq, hregs, Regs.reset]

end Sys2Proof.Proofs
end

section
/-!
Soft and hardware reset (70_reset_and_hazards R241 to R243).
-/

namespace Sys2Proof.Proofs

open Sys2Proof.Machine

/-- The abort of a command over no device is no refusal (log entry 12). -/
theorem abortUnknown_setInputs_false {s : State} (is : List Input)
    (h : ∀ i sz, inFlight s = some (i, sz) → ∀ a ∈ accessAddrs i s.latch sz, s.platform.kindOf a ≠ some .device) :
    abortUnknown (s.setInputs is) = false :=
  abortUnknown_false_iff.mpr h

/-- An abort leaves the platform, the pending moves and the responses as they are. -/
theorem abortDraws_frame (s : State) :
    (abortDraws s).platform = s.platform ∧ (abortDraws s).inputs = s.inputs ∧
      (abortDraws s).responses = s.responses := by
  obtain ⟨heq, -⟩ := abortDraws_spec s
  rw [heq]
  exact ⟨rfl, rfl, rfl⟩

/-- Settles O54: a write of CTRL with SOFT_RESET resets the block after the abort, which draws destination bytes
only. -/
theorem softResetClearsRegisters : Obligations.SoftResetClearsRegisters := by
  intro s v rest hr hi h2 hdev
  obtain ⟨hp, hin, hresp⟩ := abortDraws_frame (s.setInputs rest)
  obtain ⟨-, hread, -⟩ := abortDraws_spec (s.setInputs rest)
  have hstep : step s = .next (resetBlock (abortDraws (s.setInputs rest))) := by
    rw [step_wr (g := .ctrl) rfl hr hi]
    simp only [writeReg, writeCtrl, h2, if_true, softReset, abortUnknown_setInputs_false rest hdev]
    rfl
  refine ⟨_, hstep, rfl, rfl, hin, hp, hresp, fun a ha => ?_, fun hb => ?_⟩
  · simp only [resetBlock_mem, Memory.byteAt, hread a ha]
    rfl
  · simp only [resetBlock_mem, abortDraws_idle (s := s.setInputs rest) hb]
    rfl

/-- The assertion of `rst`, where it is not refused. -/
theorem step_assertRst {s : State} {rest : List Input} (hi : s.inputs = .assertRst :: rest)
    (h : ∀ i sz, inFlight s = some (i, sz) → ∀ a ∈ accessAddrs i s.latch sz, s.platform.kindOf a ≠ some .device) :
    step s = .next ((resetBlock (abortDraws (s.setInputs rest))).setRst true) := by
  have hT : takeTurn s = (.assertRst, s.setInputs rest) := by simp [takeTurn, hi]
  simp only [step, hT, assertReset, abortUnknown_setInputs_false rest h]
  rfl

/-- The release of an asserted `rst`. -/
theorem step_releaseRst {s : State} {rest : List Input} (hi : s.inputs = .releaseRst :: rest) (hr : s.rst = true) :
    step s = .next ((resetBlock (s.setInputs rest)).setRst false) := by
  have hT : takeTurn s = (.releaseRst, s.setInputs rest) := by simp [takeTurn, hi]
  simp only [step, hT, releaseReset, State.setInputs_rst, hr, if_true]

/-- While `rst` is asserted every register access and every poll is refused (70_reset_and_hazards R241). -/
theorem step_refused_of_rst {s : State} {m : Input} {rest : List Input} {addr v : Word} {width : Nat}
    (hm : m = .host (.regRead addr width) ∨ m = .host (.regWrite addr width v) ∨ m = .wait)
    (hi : s.inputs = m :: rest) (hr : s.rst = true) : step s = .refused .accessDuringReset := by
  rcases hm with rfl | rfl | rfl
  · simp [step_host hi, hostMove, hostRegRead, hr]
  · simp [step_host hi, hostMove, hostRegWrite, hr]
  · simp [step, takeTurn, hi, hr, hostMove, hostRegRead]

/-- Settles O55: the assertion leaves the moves after it pending and `rst` asserted; the release resets the block. -/
theorem hardwareResetClearsRegisters : Obligations.HardwareResetClearsRegisters := by
  intro s rest hdev
  refine ⟨fun hi => ?_, fun addr width v m hm hi => ?_⟩
  · obtain ⟨-, hin, -⟩ := abortDraws_frame (s.setInputs (.releaseRst :: rest))
    exact ⟨_, _, step_assertRst hi hdev, step_releaseRst hin rfl, rfl, rfl, rfl, rfl⟩
  · obtain ⟨-, hin, -⟩ := abortDraws_frame (s.setInputs (m :: rest))
    exact ⟨_, step_assertRst hi hdev, step_refused_of_rst hm hin rfl⟩

end Sys2Proof.Proofs
end

section
/-!
The statistics commands at a clean launch: the delivered words and the accumulators are the exact sums (41_statistics
R120 to R128).
-/

namespace Sys2Proof.Proofs

open Sys2Proof.Machine

theorem isPixels_sampleAt (sz : Size) (xp yp : Phase) (m : Memory) (v : View) :
    IsPixels sz (sampleAt xp yp (pix m v)) :=
  fun _ _ _ _ => sampleAt_le (fun _ _ => pix_le ..) ..

theorem isPixels_averagedAt (sz : Size) (xp yp : Phase) (m : Memory) (v u : View) :
    IsPixels sz (averagedAt xp yp (pix m v) (pix m u)) :=
  fun _ _ _ _ => averagedAt_le (fun _ _ => pix_le ..) (fun _ _ => pix_le ..) ..

/-- At 32 and 21 bits the accumulators lose nothing of a reduction of two blocks of samples (41_statistics R124). -/
theorem accumulators_exact {wc hc : SizeCode} {sz : Size} (h : sizeDecode wc hc = some sz) {x y : Nat → Nat → Nat}
    (hx : IsPixels sz x) (hy : IsPixels sz y) :
    ((BitVec.ofNat 32 (reduce sz x y).1).toNat : Int) = sumSquares sz x y ∧
      (BitVec.ofInt 21 (reduce sz x y).2).toInt = sumDiffs sz x y := by
  obtain ⟨-, -, hsum⟩ := sums_bounded h hx hy
  rw [abs_le] at hsum
  refine ⟨(delivered_exact h hx hy).1, ?_⟩
  rw [reduce_snd, BitVec.toInt_ofInt, Int.bmod_eq_of_le] <;> omega

/-- Settles O15: SSE delivers the reduction of blocks A and B. -/
theorem sseCompletes : Obligations.SseCompletes := by
  intro wc hc sz s h
  have hlegal : LegalConfig _ s.latch sz := h.1
  obtain ⟨hsse, hsum, -⟩ := delivered_exact hlegal.1 (isPixels_pix sz s.mem s.latch.viewA)
    (isPixels_pix sz s.mem s.latch.viewB)
  exact ⟨_, exec_clean h, rfl, hsse, hsum, rfl⟩

/-- Settles O16: VAR delivers the reduction of blocks A and B and its variance. -/
theorem varCompletes : Obligations.VarCompletes := by
  intro wc hc sz s h
  have hlegal : LegalConfig _ s.latch sz := h.1
  obtain ⟨hsse, hsum, hvar⟩ := delivered_exact hlegal.1 (isPixels_pix sz s.mem s.latch.viewA)
    (isPixels_pix sz s.mem s.latch.viewB)
  exact ⟨_, exec_clean h, rfl, hsse, hvar, hsum, rfl⟩

/-- The samples the engine interpolates are those of plain arithmetic (42_interpolation R144). -/
theorem interpolate_pix (xp yp : Phase) (m : Memory) (v : View) :
    interpolate xp yp (pix m v) = sampleAt xp yp (pix m v) :=
  funext₂ (interpolate_eq (fun _ _ => pix_le ..) xp yp)

theorem interpolateAvg_pix (xp yp : Phase) (m : Memory) (v u : View) :
    interpolateAvg xp yp (pix m v) (pix m u) = averagedAt xp yp (pix m v) (pix m u) :=
  funext₂ (interpolateAvg_eq (fun _ _ => pix_le ..) _ xp yp)

/-- SUBPIX_VAR reduces the interpolated samples of A against B (43_subpixel_statistics R174). -/
theorem commandBody_subpixVar (wc hc : SizeCode) (xp yp : Phase) (sz : Size) (s : State) :
    commandBody (.subpixVar wc hc xp yp) sz s =
      let r := reduce sz (sampleAt xp yp (pix s.mem s.latch.viewA)) (pix s.mem s.latch.viewB)
      completeOk (varResults sz r) (discardBuffers (setAccs r s)) := by
  rw [← interpolate_pix]
  exact subpixVarBody_eq xp yp sz s

/-- SUBPIX_AVG_VAR reduces the averaged samples of A and S against B (43_subpixel_statistics R175). -/
theorem commandBody_subpixAvgVar (wc hc : SizeCode) (xp yp : Phase) (sz : Size) (s : State) :
    commandBody (.subpixAvgVar wc hc xp yp) sz s =
      let r := reduce sz (averagedAt xp yp (pix s.mem s.latch.viewA) (pix s.mem s.latch.viewS))
        (pix s.mem s.latch.viewB)
      completeOk (varResults sz r) (discardBuffers (setAccs r s)) := by
  rw [← interpolateAvg_pix]
  exact subpixAvgVarBody_eq xp yp sz s

/-- Settles O19: each of the four leaves the reduction of its blocks in the accumulators. -/
theorem accumulatorsHoldExactSums : Obligations.AccumulatorsHoldExactSums := by
  intro i sz s x h hx
  refine ⟨_, exec_clean h, ?_⟩
  obtain ⟨⟨hsz, -⟩, -⟩ := h
  have exact_of (hp : IsPixels sz x) := accumulators_exact hsz hp (isPixels_pix sz s.mem s.latch.viewB)
  rcases hx with ⟨⟨wc, hc, rfl⟩ | ⟨wc, hc, rfl⟩, rfl⟩ | ⟨wc, hc, xp, yp, rfl, rfl⟩ | ⟨wc, hc, xp, yp, rfl, rfl⟩
  · exact exact_of (isPixels_pix sz _ _)
  · exact exact_of (isPixels_pix sz _ _)
  · rw [commandBody_subpixVar]
    exact exact_of (isPixels_sampleAt sz xp yp _ _)
  · rw [commandBody_subpixAvgVar]
    exact exact_of (isPixels_averagedAt sz xp yp _ _ _)

end Sys2Proof.Proofs
end

section
/-!
The interpolating commands at a clean launch: the destination window and the intermediate buffer (42_interpolation R141
to R150).
-/

namespace Sys2Proof.Proofs

open Sys2Proof.Machine

/-- The view D of a command that stores a block is used, as the destination. -/
theorem viewD_mem_usedViews {i : Instr} {s : State} {f : Nat → Nat → Nat} (h : storedBlock i s = some f) (l : Latch) :
    ⟨l.viewD, .dest⟩ ∈ usedViews i l := by
  cases i with
  | sse => cases h
  | var => cases h
  | subpixVar => cases h
  | subpixAvgVar => cases h
  | interp => simp [usedViews]
  | interpAvg => simp [usedViews]

/-- The samples a command stores are 8 bits wide. -/
theorem storedBlock_le {i : Instr} {s : State} {f : Nat → Nat → Nat} (h : storedBlock i s = some f) (r c : Nat) :
    f r c ≤ 255 := by
  cases i with
  | sse => cases h
  | var => cases h
  | subpixVar => cases h
  | subpixAvgVar => cases h
  | interp =>
    cases h
    rw [interpolate_pix]
    exact sampleAt_le (fun _ _ => pix_le ..) ..
  | interpAvg =>
    cases h
    rw [interpolateAvg_pix]
    exact averagedAt_le (fun _ _ => pix_le ..) (fun _ _ => pix_le ..) ..

/-- After a command that stores a block, the window of D reads as the block (20_memory R65, R70). -/
theorem pix_memAfter {i : Instr} {sz : Size} {s : State} {f : Nat → Nat → Nat} (hl : LegalConfig i s.latch sz)
    (hb : storedBlock i s = some f) {r c : Nat} (hr : r < sz.h) (hc : c < sz.w) :
    pix (memAfter i sz s) s.latch.viewD r c = f r c := by
  obtain ⟨hs, -⟩ := hl.2 _ (viewD_mem_usedViews hb s.latch)
  simp only [memAfter, hb]
  exact pix_putBlock _ _ _ hs hr hc (storedBlock_le hb r c)

/-- After a command at a clean launch every byte outside the window of D is as before. -/
theorem byteAt_commandBody_other {i : Instr} {sz : Size} {s : State} {a : Nat}
    (h : ∀ r < sz.h, ∀ c < sz.w, a ≠ pixAddr s.latch.viewD r c) :
    Memory.byteAt (commandBody i sz s).mem a = Memory.byteAt s.mem a := by
  have hread : Memory.read (commandBody i sz s).mem a = Memory.read s.mem a := commandBody_read_other fun hd => by
    obtain ⟨-, r, c, hr, hc, heq⟩ := mem_destAddrs_cases hd
    exact h r hr c hc heq
  simp only [Memory.byteAt, hread]

/-- Settles O26: INTERP stores the interpolated block and delivers no result. -/
theorem interpCompletes : Obligations.InterpCompletes := by
  intro wc hc xp yp sz s h
  refine ⟨_, exec_clean h, rfl, fun r hr c hc => ?_, fun _ => byteAt_commandBody_other, rfl⟩
  rw [commandBody_mem, pix_memAfter h.1 rfl hr hc, interpolate_pix]

/-- Settles O27: INTERP_AVG stores the averaged block and delivers no result. -/
theorem interpAvgCompletes : Obligations.InterpAvgCompletes := by
  intro wc hc xp yp sz s h
  refine ⟨_, exec_clean h, rfl, fun r hr c hc => ?_, fun _ => byteAt_commandBody_other, rfl⟩
  rw [commandBody_mem, pix_memAfter h.1 rfl hr hc, interpolateAvg_pix]

/-- The number of rows of a tabulated buffer. -/
theorem length_tabulate (n h w : Nat) (f : Nat → Nat → Nat) : (tabulate n h w f).length = h := by simp [tabulate]

/-- The length of each row of a tabulated buffer. -/
theorem length_row_tabulate {n h w : Nat} {f : Nat → Nat → Nat} {row : List (BitVec n)} (hr : row ∈ tabulate n h w f) :
    row.length = w := by
  obtain ⟨r, -, rfl⟩ := List.mem_map.mp hr
  simp

/-- The element of a tabulated buffer at a position within it. -/
theorem getElem?_tabulate {n h w r c : Nat} {f : Nat → Nat → Nat} (hr : r < h) (hc : c < w) :
    (tabulate n h w f)[r]?.bind (·[c]?) = some (BitVec.ofNat n (f r c)) := by
  simp [tabulate, hr, hc]

/-- The element of T at a position is its rounded sample, of 8 bits (42_interpolation R141, R142). -/
theorem getElem?_setT {sz : Size} {xp : Phase} {s : State} {r c : Nat} (hr : r < sz.h + 1) (hc : c < sz.w) :
    ∃ e : BitVec 16, (setT sz xp s).hidden.t[r]?.bind (·[c]?) = some e ∧
      e.toNat = tapSample xp (pix s.mem s.latch.viewA r c) (pix s.mem s.latch.viewA r (c + 1)) ∧ e.toNat ≤ 255 := by
  have hle := hpass_le (src := pix s.mem s.latch.viewA) (fun _ _ => pix_le ..) xp r c
  have hval : (BitVec.ofNat 16 (hpass xp (pix s.mem s.latch.viewA) r c)).toNat =
      hpass xp (pix s.mem s.latch.viewA) r c := by
    rw [BitVec.toNat_ofNat, Nat.mod_eq_of_lt (by omega)]
  exact ⟨_, getElem?_tabulate hr hc, hval.trans (filterTap_filt ..), hval.symm ▸ hle⟩

/-- Settles O30: T is tabulated whole, the vertical pass reads it back, and every interpolating command discards it. -/
theorem bufferHoldsHorizontalPass : Obligations.BufferHoldsHorizontalPass := by
  intro i xp yp wc hc sz s h hi
  refine ⟨length_tabulate .., fun _ => length_row_tabulate, fun r hr c hc => getElem?_setT hr hc,
    fun r hr c hc => ?_, _, exec_clean h, ?_⟩
  · rw [verticalPass_setT hr hc, interpolate_pix]
  · rcases hi with rfl | rfl | rfl | rfl <;> exact ⟨rfl, rfl⟩

end Sys2Proof.Proofs
end

section
/-!
The results of a command depend on the latch, the platform and the samples of its read windows alone (10_state R46).
-/

namespace Sys2Proof.Proofs

open Sys2Proof.Machine

/-- Two blocks have the same samples at the positions of a block of `h` rows and `w` columns. -/
def SameSamples (h w : Nat) (x y : Nat → Nat → Nat) : Prop := ∀ r < h, ∀ c < w, x r c = y r c

/-- An interpolated sample is made of samples of the source's block of one more row and column. -/
theorem interpolate_congr {h w : Nat} {x y : Nat → Nat → Nat} (xp yp : Phase) (hxy : SameSamples (h + 1) (w + 1) x y) :
    SameSamples h w (interpolate xp yp x) (interpolate xp yp y) := by
  intro r hr c hc
  simp only [interpolate, vpass, hpass]
  rw [hxy r (by omega) c (by omega), hxy r (by omega) (c + 1) (by omega), hxy (r + 1) (by omega) c (by omega),
    hxy (r + 1) (by omega) (c + 1) (by omega)]

theorem interpolateAvg_congr {h w : Nat} {x y p q : Nat → Nat → Nat} (xp yp : Phase)
    (hxy : SameSamples (h + 1) (w + 1) x y) (hpq : SameSamples h w p q) :
    SameSamples h w (interpolateAvg xp yp x p) (interpolateAvg xp yp y q) := by
  intro r hr c hc
  simp only [interpolateAvg, averageWith, interpolate_congr xp yp hxy r hr c hc, hpq r hr c hc]

/-- The windows a command reads hold the same bytes in two states. -/
def SameReads (i : Instr) (sz : Size) (s u : State) : Prop :=
  ∀ v ∈ usedViews i s.latch, v.role ≠ .dest → ∀ a ∈ v.addrs sz, Memory.byteAt u.mem a = Memory.byteAt s.mem a

theorem sameSamples_of_sameReads {i : Instr} {sz : Size} {s u : State} (h : SameReads i sz s u) {v : View} {o : Role}
    (hv : ⟨v, o⟩ ∈ usedViews i s.latch) (ho : o ≠ .dest) :
    SameSamples (o.rows sz) (o.cols sz) (pix u.mem v) (pix s.mem v) := by
  intro r hr c hc
  simp only [pix, h _ hv ho _ (mem_addrs.mpr ⟨r, hr, c, hc, rfl⟩)]

section

variable {i : Instr} {sz : Size} {s u : State}

/-- A view read as a block of the command's size. -/
theorem sameSamples_stats (h : SameReads i sz s u) {v : View} (hv : ⟨v, .stats⟩ ∈ usedViews i s.latch) :
    SameSamples sz.h sz.w (pix u.mem v) (pix s.mem v) :=
  sameSamples_of_sameReads h hv (by decide)

/-- A view read as the second prediction. -/
theorem sameSamples_second (h : SameReads i sz s u) {v : View} (hv : ⟨v, .second⟩ ∈ usedViews i s.latch) :
    SameSamples sz.h sz.w (pix u.mem v) (pix s.mem v) :=
  sameSamples_of_sameReads h hv (by decide)

/-- A view read by the interpolator, with one more row and column. -/
theorem sameSamples_interpSrc (h : SameReads i sz s u) {v : View} (hv : ⟨v, .interpSrc⟩ ∈ usedViews i s.latch) :
    SameSamples (sz.h + 1) (sz.w + 1) (pix u.mem v) (pix s.mem v) :=
  sameSamples_of_sameReads h hv (by decide)

/-- Equal read windows give equal results. -/
theorem resultsOf_congr (hlatch : u.latch = s.latch) (h : SameReads i sz s u) :
    resultsOf i sz u = resultsOf i sz s := by
  simp only [resultsOf, hlatch]
  cases i with
  | sse =>
    exact congrArg sseResults (reduce_congr (sameSamples_stats h (by simp [usedViews]))
      (sameSamples_stats h (by simp [usedViews])))
  | var =>
    exact congrArg (varResults sz) (reduce_congr (sameSamples_stats h (by simp [usedViews]))
      (sameSamples_stats h (by simp [usedViews])))
  | interp => rfl
  | interpAvg => rfl
  | subpixVar _ _ xp yp =>
    exact congrArg (varResults sz) (reduce_congr
      (interpolate_congr xp yp (sameSamples_interpSrc h (by simp [usedViews])))
      (sameSamples_stats h (by simp [usedViews])))
  | subpixAvgVar _ _ xp yp =>
    exact congrArg (varResults sz) (reduce_congr
      (interpolateAvg_congr xp yp (sameSamples_interpSrc h (by simp [usedViews]))
        (sameSamples_second h (by simp [usedViews])))
      (sameSamples_stats h (by simp [usedViews])))

/-- Equal read windows give the same stored block, or none in both states. -/
theorem storedBlock_congr (hlatch : u.latch = s.latch) (h : SameReads i sz s u) {f : Nat → Nat → Nat}
    (hf : storedBlock i s = some f) : ∃ g, storedBlock i u = some g ∧ SameSamples sz.h sz.w g f := by
  simp only [storedBlock, hlatch]
  cases i with
  | sse => cases hf
  | var => cases hf
  | subpixVar => cases hf
  | subpixAvgVar => cases hf
  | interp _ _ xp yp =>
    cases hf
    exact ⟨_, rfl, interpolate_congr xp yp (sameSamples_interpSrc h (by simp [usedViews]))⟩
  | interpAvg _ _ xp yp =>
    cases hf
    exact ⟨_, rfl, interpolateAvg_congr xp yp (sameSamples_interpSrc h (by simp [usedViews]))
      (sameSamples_second h (by simp [usedViews]))⟩

/-- A command with a destination stores a block. -/
theorem exists_storedBlock_of_mem_destAddrs {l : Latch} {a : Nat} (h : a ∈ destAddrs i l sz) (s : State) :
    ∃ f, storedBlock i s = some f := by
  cases hb : storedBlock i s with
  | none =>
    rw [destAddrs_of_storedBlock_none hb] at h
    cases h
  | some f => exact ⟨f, rfl⟩

/-- Equal read windows give the same bytes in the window of D. -/
theorem byteAt_dest_congr (hc : CleanLaunch i sz s) (hc' : CleanLaunch i sz u) (hlatch : u.latch = s.latch)
    (h : SameReads i sz s u) {a : Nat} (ha : a ∈ destAddrs i s.latch sz) :
    Memory.byteAt (commandBody i sz u).mem a = Memory.byteAt (commandBody i sz s).mem a := by
  obtain ⟨f, hf⟩ := exists_storedBlock_of_mem_destAddrs ha s
  obtain ⟨g, hg, hgf⟩ := storedBlock_congr hlatch h hf
  obtain ⟨-, r, c, hr, hcol, rfl⟩ := mem_destAddrs_cases ha
  have hs := pix_memAfter hc.1 hf hr hcol
  have hu := pix_memAfter hc'.1 hg hr hcol
  rw [hlatch, hgf r hr c hcol, ← hs] at hu
  rw [commandBody_mem, commandBody_mem]
  exact BitVec.eq_of_toNat_eq hu

end

/-- Settles O33: both launches are clean, and the results and the stored block are made of the read samples. -/
theorem resultsDependOnInputsAlone : Obligations.ResultsDependOnInputsAlone := by
  intro i sz s u hs hlatch hplatform hreads
  have hu : CleanLaunch i sz u := by simpa only [CleanLaunch, hlatch, hplatform] using hs
  refine ⟨_, _, exec_clean hs, exec_clean hu, fun a => byteAt_dest_congr hs hu hlatch hreads, ?_⟩
  rw [commandBody_regs, commandBody_regs, resultsOf_congr hlatch hreads]
  cases i with
  | sse wc hc => exact .inr ⟨rfl, rfl, .inl ⟨wc, hc, rfl⟩⟩
  | var => exact .inr ⟨rfl, rfl, .inr rfl⟩
  | interp wc hc xp yp => exact .inl (.inl ⟨wc, hc, xp, yp, rfl⟩)
  | interpAvg wc hc xp yp => exact .inl (.inr ⟨wc, hc, xp, yp, rfl⟩)
  | subpixVar => exact .inr ⟨rfl, rfl, .inr rfl⟩
  | subpixAvgVar => exact .inr ⟨rfl, rfl, .inr rfl⟩

end Sys2Proof.Proofs
end

section
/-!
The command word as bytes: the engine's layout loses nothing of a command (20_memory R63, 30_encoding R91 to R93).
-/

namespace Sys2Proof.Proofs

open Sys2Proof.Machine

/-- An assembled word decodes to the command of its op and fields, where SSE and VAR have no phase (30_encoding R92). -/
theorem decodeWord_assembleWord (op : Op) (wc hc : SizeCode) (xp yp : Phase)
    (h : op.takesNoPhase = true → xp = 0 ∧ yp = 0) :
    decodeWord (assembleWord yp xp hc wc (opCode op)) = .ok (buildInstr op wc hc xp yp) := by
  have hphase : ¬ (op.takesNoPhase = true ∧ (xp ≠ 0 ∨ yp ≠ 0)) := fun ⟨ht, hne⟩ => by
    obtain ⟨rfl, rfl⟩ := h ht
    simp at hne
  simp only [decodeWord, opField_assembleWord, opOf_opCode, rsvdBits_assembleWord, xphaseField_assembleWord,
    yphaseField_assembleWord, wcodeField_assembleWord, hcodeField_assembleWord, if_neg hphase, ne_eq, not_true,
    if_false]

/-- The word of a command decodes to it (30_encoding R91, R101). -/
theorem decodeWord_encode (i : Instr) : decodeWord (encode i) = .ok i := by
  cases i with
  | sse wc hc => exact decodeWord_assembleWord .sse wc hc 0 0 fun _ => ⟨rfl, rfl⟩
  | var wc hc => exact decodeWord_assembleWord .var wc hc 0 0 fun _ => ⟨rfl, rfl⟩
  | interp wc hc xp yp => exact decodeWord_assembleWord .interp wc hc xp yp nofun
  | interpAvg wc hc xp yp => exact decodeWord_assembleWord .interpAvg wc hc xp yp nofun
  | subpixVar wc hc xp yp => exact decodeWord_assembleWord .subpixVar wc hc xp yp nofun
  | subpixAvgVar wc hc xp yp => exact decodeWord_assembleWord .subpixAvgVar wc hc xp yp nofun

/-- A word is put together again from its four bytes (20_memory R63). -/
theorem wordOfBytes_extract (w : Word) :
    wordOfBytes (w.extractLsb' 0 8) (w.extractLsb' 8 8) (w.extractLsb' 16 8) (w.extractLsb' 24 8) = w := by
  apply BitVec.eq_of_getLsbD_eq
  intro k hk
  unfold wordOfBytes
  show BitVec.getLsbD (w := 8 + 8 + 8 + 8) _ k = _
  simp only [BitVec.getLsbD_append, BitVec.getLsbD_extractLsb']
  interval_cases k <;> simp

/-- Settles O6: the four bytes make up the word again, which decodes to its command. -/
theorem decodeBytesOfEncode : Obligations.DecodeBytesOfEncode := by
  intro i rest
  simp only [encodeBytes, bytesOfWord, List.cons_append, List.nil_append, decode, wordOfBytes_extract,
    decodeWord_encode]

end Sys2Proof.Proofs
end

section
/-!
The configuration checks and the platform's answer as the ends of a command: BAD_STRIDE and ADDR_WRAP, the two faults,
the refusal, and the bus error (20_memory R66 to R74, 60_exceptions R202 to R206, R219).
-/

namespace Sys2Proof.Proofs

open Sys2Proof.Machine

/-- A command that fails a check ends with that error and no other effect (60_exceptions R203, R206). -/
theorem exec_of_checkConfig_error {i : Instr} {s : State} {e : CmdError} (h : checkConfig i s.latch = .error e) :
    exec i s = .next (completeErr e 0 s) := by
  simp only [exec_eq, runCommand, h]

/-- Where every used view's stride is at least W, the checks give no BAD_STRIDE (20_memory R70). -/
theorem checkConfig_ne_badStride {i : Instr} {l : Latch} {sz : Size} (h : sizeDecode i.wcode i.hcode = some sz)
    (hs : ∀ u ∈ usedViews i l, sz.w ≤ u.view.stride.toNat) : checkConfig i l ≠ .error .badStride := by
  have hany : ¬ (usedViews i l).any (fun u => decide (u.view.stride.toNat < sz.w)) = true := by simpa using hs
  simp only [checkConfig, h, if_neg hany]
  split <;> simp

/-- The error code a command leaves is an error's of its checks, BUS_ERR's, or the one that stood there. -/
theorem exec_errCode {i : Instr} {s t : State} (h : exec i s = .next t) :
    (∃ e, checkConfig i s.latch = .error e ∧ t.regs.errCode = errorCode e) ∨ t.regs.errCode = errorCode .busErr ∨
      t.regs.errCode = s.regs.errCode := by
  rw [exec_eq] at h
  rcases runCommand_next h with ⟨e, he, rfl⟩ | ⟨sz, as, -, hne, -, rfl⟩ | ⟨sz, -, rfl⟩
  · exact .inl ⟨e, he, rfl⟩
  · rcases busResponse_cases i sz s hne with ⟨-, hb⟩ | ⟨-, a, -, hb⟩
    · exact .inr (.inr (by rw [hb]))
    · exact .inr (.inl (by rw [hb]; rfl))
  · exact .inr (.inr (by rw [commandBody_regs]; rfl))

/-- BAD_STRIDE alone has the code 4 (60_exceptions R201). -/
theorem errorCode_eq_four {e : CmdError} (h : errorCode e = 4) : e = .badStride := by
  cases e <;> simp [errorCode] at h ⊢

/-- Settles O38: a stride below W fails the checks with BAD_STRIDE, and no other end of a command has its code. -/
theorem badStrideEndsCommand : Obligations.BadStrideEndsCommand := by
  intro i s sz hsz
  refine ⟨fun u hu hlt => exec_of_checkConfig_error (checkConfig_badStride hsz hu hlt), fun hs t h h4 => ?_⟩
  rcases exec_errCode h with ⟨e, he, hcode⟩ | hcode | hcode
  · rw [errorCode_eq_four (hcode.symm.trans h4)] at he
    exact absurd he (checkConfig_ne_badStride hsz hs)
  · cases errorCode_eq_four (hcode.symm.trans h4)
  · rw [← hcode, h4]

/-- Settles O39: an address past 0xFFFF_FFFF puts the window's last one there too. -/
theorem addrWrapEndsCommand : Obligations.AddrWrapEndsCommand := by
  intro i s sz u a hsz hs hu ha hwrap
  have hlast := le_lastAddr ha
  exact exec_of_checkConfig_error (checkConfig_addrWrap hsz hs hu (by omega))

/-- What a legal command does for each answer of the platform (20_memory R71, R72, R74; 60_exceptions R204). -/
def admittedOutcome (i : Instr) (sz : Size) (s : State) : Admission → Host.Outcome State Fault Refusal
  | .nonIdempotent => .refused .nonIdempotent
  | .unadmitted => .fault .unadmitted
  | .overlap => .fault .overlap
  | .unanswered addrs => .next (busResponse i sz addrs s)
  | .clear => .next (commandBody i sz s)

/-- A command that passes its checks does what the platform's answer makes of it. -/
theorem exec_of_legal {i : Instr} {s : State} {sz : Size} (h : LegalConfig i s.latch sz) :
    exec i s = admittedOutcome i sz s (admission i s.latch s.platform sz) := by
  simp only [exec_eq, runCommand, checkConfig_ok_iff.mpr h]
  cases admission i s.latch s.platform sz <;> rfl

section
variable {i : Instr} {l : Latch} {p : Platform} {sz : Size} {a : Nat}

/-- Memory with side effects is looked for first (log entry 20). -/
theorem admission_of_device (ha : a ∈ accessAddrs i l sz) (hk : p.kindOf a = some .device) :
    admission i l p sz = .nonIdempotent :=
  if_pos (List.any_eq_true.mpr ⟨a, ha, decide_eq_true hk⟩)

theorem admission_of_unadmitted (hd : ∀ a ∈ accessAddrs i l sz, p.kindOf a ≠ some .device)
    (ha : a ∈ accessAddrs i l sz) (hk : p.kindOf a = none) : admission i l p sz = .unadmitted :=
  (if_neg (by simpa using hd)).trans (if_pos (List.any_eq_true.mpr ⟨a, ha, decide_eq_true hk⟩))

theorem admission_of_overlap (hr : ∀ a ∈ accessAddrs i l sz, p.kindOf a = some .ram) (ho : ¬ NoOverlap i l sz) :
    admission i l p sz = .overlap := by
  rcases admission_cases i l p sz with ⟨-, a, ha, hk⟩ | ⟨-, -, a, ha, hk⟩ | ⟨h, -⟩ | ⟨as, -, -, hn, -⟩ | ⟨-, -, hn⟩
  · cases (hr a ha).symm.trans hk
  · cases (hr a ha).symm.trans hk
  · exact h
  · exact absurd hn ho
  · exact absurd hn ho

/-- With every address RAM or unbacked, one of them unbacked, and no overlap, some unbacked addresses stay unanswered. -/
theorem admission_of_unbacked
    (hk : ∀ a ∈ accessAddrs i l sz, p.kindOf a = some .ram ∨ p.kindOf a = some .unbacked) (hn : NoOverlap i l sz)
    (ha : a ∈ accessAddrs i l sz) (hu : p.kindOf a = some .unbacked) :
    ∃ as, admission i l p sz = .unanswered as ∧ as ≠ [] ∧
      ∀ b ∈ as, b ∈ accessAddrs i l sz ∧ p.kindOf b = some .unbacked := by
  rcases admission_cases i l p sz with ⟨-, b, hb, hd⟩ | ⟨-, -, b, hb, hd⟩ | ⟨-, -, ho⟩ | ⟨as, h, -, -, has⟩ | ⟨-, hr, -⟩
  · rcases hk b hb with h | h <;> cases h.symm.trans hd
  · rcases hk b hb with h | h <;> cases h.symm.trans hd
  · exact absurd hn ho
  · exact ⟨as, h, has⟩
  · cases (hr a ha).symm.trans hu

end

/-- Settles O42: the shared byte is the overlap the admission looks for. -/
theorem overlapFaults : Obligations.OverlapFaults := by
  intro i s sz d u a hl hr hd hdest hu hread had hau
  have ho : ¬ NoOverlap i s.latch sz := fun h => h d hd hdest u hu hread a had hau
  rw [exec_of_legal hl, admission_of_overlap hr ho]
  rfl

/-- Settles O43: the admission looks for a device first, then for an address the launch says nothing of. -/
theorem unfitWindowsStop : Obligations.UnfitWindowsStop := by
  intro i s sz hl
  rw [exec_of_legal hl]
  refine ⟨fun ⟨a, ha, hk⟩ => ?_, fun hd ⟨a, ha, hk⟩ => ?_⟩
  · rw [admission_of_device ha hk]; rfl
  · rw [admission_of_unadmitted hd ha hk]; rfl

/-- Settles O40: the erring address is one of the 2^32 there are, so that ERR_ADDR holds it whole, and the draws touch
destination bytes alone. -/
theorem busErrorEndsCommand : Obligations.BusErrorEndsCommand := by
  rintro i s sz hl hn hk ⟨a, ha, hu⟩ herror
  obtain ⟨as, hadm, hne, has⟩ := admission_of_unbacked hk hn ha hu
  rcases busResponse_cases i sz s hne with ⟨hhang, -⟩ | ⟨-, b, hb, hbus⟩
  · cases herror.symm.trans hhang
  obtain ⟨hacc, hunb⟩ := has b hb
  have hword : (BitVec.ofNat 32 b).toNat = b := by
    rw [BitVec.toNat_ofNat, Nat.mod_eq_of_lt (hl.access_lt hacc)]
  refine ⟨completeErr .busErr (BitVec.ofNat 32 b) (drawBytes (destAddrs i s.latch sz) (s.setDraws (s.draws + 1))),
    ?_, by simp [errorCode], ?_, ?_, fun c hc => ?_, by simp, by simp⟩
  · rw [exec_of_legal hl, hadm, ← hbus]; rfl
  · simpa [hword] using hacc
  · simpa [hword] using hunb
  · simp only [completeErr_mem, Memory.byteAt, drawBytes_read_other _ _ hc]
    rfl

end Sys2Proof.Proofs
end

section
/-!
The host's own loads and stores against the windows of the command in flight (20_memory R85, 60_exceptions R219), and
which bytes of pixel memory a step of any agent can change (20_memory R61).
-/

namespace Sys2Proof.Proofs

open Sys2Proof.Machine

theorem inFlightWindow_iff {s : State} {a : Nat} :
    inFlightWindow s a = true ↔ ∃ i sz, inFlight s = some (i, sz) ∧ a ∈ accessAddrs i s.latch sz := by
  unfold inFlightWindow
  cases inFlight s with
  | none => simp
  | some p => simp [inWindows_iff, Prod.ext_iff]

theorem inFlightDest_iff {s : State} {a : Nat} :
    inFlightDest s a = true ↔ ∃ i sz, inFlight s = some (i, sz) ∧ a ∈ destAddrs i s.latch sz := by
  unfold inFlightDest
  cases inFlight s with
  | none => simp
  | some p => simp [inDest_iff, Prod.ext_iff]

/-- Settles O56: the store looks at the windows in flight first, then for RAM. -/
theorem hostStoreRacesOnlyInWindows : Obligations.HostStoreRacesOnlyInWindows := by
  intro s addr v rest hi
  rw [step_host hi]
  simp only [hostMove, hostStore]
  refine ⟨fun i sz hf ha => ?_, fun hout => ?_⟩
  · have hw : inFlightWindow (s.setInputs rest) addr.toNat = true := inFlightWindow_iff.mpr ⟨i, sz, hf, ha⟩
    rw [if_pos hw]
  · have hw : ¬ inFlightWindow (s.setInputs rest) addr.toNat = true := fun hw =>
      let ⟨i, sz, hf, ha⟩ := inFlightWindow_iff.mp hw
      hout i sz hf ha
    rw [if_neg hw]
    exact ⟨fun hram => ⟨_, if_pos hram, Memory.byteAt_write_same .., fun a ha => Memory.byteAt_write_other _ _ ha, rfl⟩,
      fun hram => if_neg hram⟩

/-- Settles O57: the load looks at the destination in flight first, then for RAM. -/
theorem hostLoadDrawsOnlyInDestination : Obligations.HostLoadDrawsOnlyInDestination := by
  intro s addr rest hi
  rw [step_host hi]
  simp only [hostMove, hostLoad]
  refine ⟨fun i sz hf ha => ?_, fun hout => ?_⟩
  · have hd : inFlightDest (s.setInputs rest) addr.toNat = true := inFlightDest_iff.mpr ⟨i, sz, hf, ha⟩
    rw [if_pos hd]
    rfl
  · have hd : ¬ inFlightDest (s.setInputs rest) addr.toNat = true := fun hd =>
      let ⟨i, sz, hf, ha⟩ := inFlightDest_iff.mp hd
      hout i sz hf ha
    rw [if_neg hd]
    exact ⟨fun hram => if_pos hram, fun hram => if_neg hram⟩

/-- A register write changes no byte outside the destination of a command it aborts (70_reset_and_hazards R243). -/
theorem writeReg_read_other {g : Reg} {v : Word} {s t : State} {a : Nat} (h : writeReg g v s = .next t)
    (ha : ∀ i sz, inFlight s = some (i, sz) → a ∉ destAddrs i s.latch sz) :
    Memory.read t.mem a = Memory.read s.mem a := by
  rcases writeReg_next h with rfl | rfl | ⟨-, c, va, vb, vs, vd, rfl⟩ | rfl | ⟨-, -, -, -, rfl⟩ | ⟨-, -, rfl⟩
  case inr.inr.inr.inr.inr => exact (abortDraws_spec s).2.1 a ha
  all_goals rfl

/-- The release of `rst` is no access to pixel memory. -/
theorem releaseReset_mem (s : State) : (releaseReset s).mem = s.mem := by
  unfold releaseReset
  split <;> rfl

/-- A step changes no byte but the one the host stores and those in the destination of the command in flight
(20_memory R61, R66; 70_reset_and_hazards R243). -/
theorem step_read_other {s t : State} {a : Nat} (h : step s = .next t)
    (hstore : ∀ addr v rest, s.inputs = .host (.memStore addr v) :: rest → a ≠ addr.toNat)
    (hdest : ∀ i sz, inFlight s = some (i, sz) → a ∉ destAddrs i s.latch sz) :
    Memory.read t.mem a = Memory.read s.mem a := by
  obtain ⟨s', is, rfl, ⟨-, ⟨-, rfl⟩ | ⟨-, e, -, rfl⟩ | ⟨hb, i, hd, hx⟩⟩ | ⟨m, hi, hm⟩ | ⟨-, rfl⟩ | ⟨-, rfl⟩⟩ :=
    step_next h
  case inl.inl => rfl
  case inl.inr.inl => rw [rejectWord_eq]; rfl
  case inl.inr.inr =>
    exact exec_read_other (s := s.setInputs is) hx fun sz hl => hdest i sz (inFlight_eq_some_iff.mpr ⟨hb, hd, hl⟩)
  case inr.inl =>
    rcases hostMove_next hm with ⟨addr, v, g, -, -, -, hw⟩ | ⟨x, n, rfl⟩ | ⟨addr, v, rfl, rfl⟩
    · exact writeReg_read_other (s := s.setInputs is) hw hdest
    · rfl
    · exact Memory.read_write_other _ _ (hstore addr v is hi)
  case inr.inr.inl => exact (abortDraws_spec (s.setInputs is)).2.1 a hdest
  case inr.inr.inr => rw [releaseReset_mem]; rfl

/-- Settles O14: the destination of a command in flight is the window of D of an INTERP or INTERP_AVG. -/
theorem memoryChangesOnlyAsStated : Obligations.MemoryChangesOnlyAsStated := by
  intro s t a h hne
  by_contra hno
  refine hne (step_read_other h (fun addr v rest hi ha => hno (.inl ⟨addr, v, rest, hi, ha⟩)) fun i sz hf hd => ?_)
  obtain ⟨hb, hdec, hl⟩ := inFlight_eq_some_iff.mp hf
  exact hno (.inr ⟨i, sz, hb, hdec, hl, mem_destAddrs_cases hd⟩)

end Sys2Proof.Proofs
end

section
/-!
A command looks at the views it uses and at no others (20_memory R68, 30_encoding R97): with another latch that agrees
on those it does the same and leaves that latch.
-/

namespace Sys2Proof.Proofs

open Sys2Proof.Machine

/-- An outcome with the latch of its next state replaced. -/
def outcomeWithLatch (l : Latch) : Host.Outcome State Fault Refusal → Host.Outcome State Fault Refusal
  | .next t => .next (t.setLatch l)
  | .fault f => .fault f
  | .refused r => .refused r

/-- A draw does not look at the latch. -/
theorem drawByte_setLatch (l : Latch) (a : Nat) (s : State) :
    drawByte a (s.setLatch l) = (drawByte a s).setLatch l := by
  unfold drawByte
  by_cases hram : s.platform.kindOf a = some .ram
  · have hram' : (s.setLatch l).platform.kindOf a = some .ram := hram
    rw [if_pos hram, if_pos hram']
    rfl
  · have hram' : (s.setLatch l).platform.kindOf a ≠ some .ram := hram
    rw [if_neg hram, if_neg hram']
    rfl

theorem drawBytes_setLatch (l : Latch) (as : List Nat) (s : State) :
    drawBytes as (s.setLatch l) = (drawBytes as s).setLatch l := by
  induction as generalizing s with
  | nil => rfl
  | cons a rest ih => rw [drawBytes, drawByte_setLatch, ih, drawBytes]

section
variable {i : Instr} {s : State} {l : Latch} (h : usedViews i l = usedViews i s.latch)
include h

theorem checkConfig_congr : checkConfig i l = checkConfig i s.latch := by
  simp only [checkConfig, h]

theorem accessAddrs_congr (sz : Size) : accessAddrs i l sz = accessAddrs i s.latch sz := by
  simp only [accessAddrs, h]

theorem destAddrs_congr (sz : Size) : destAddrs i l sz = destAddrs i s.latch sz := by
  simp only [destAddrs, h]

theorem admission_congr (p : Platform) (sz : Size) : admission i l p sz = admission i s.latch p sz := by
  have hr : inReads i l sz = inReads i s.latch sz := funext fun a => by simp only [inReads, h]
  have ho : overlaps i l sz = overlaps i s.latch sz := by rw [overlaps, overlaps, destAddrs_congr h, hr]
  rw [admission, admission, accessAddrs_congr h, ho]

theorem busResponse_setLatch (sz : Size) (as : List Nat) :
    busResponse i sz as (s.setLatch l) = (busResponse i sz as s).setLatch l := by
  simp only [busResponse, State.setLatch_platform]
  cases s.platform.busErrResponse with
  | hang => rfl
  | error =>
    simp only [State.setLatch_latch, State.setLatch_draws, destAddrs_congr h]
    exact congrArg (completeErr .busErr _) (drawBytes_setLatch l _ (s.setDraws (s.draws + 1)))

/-- A command's own effect reads the latch through its used views alone. -/
theorem commandBody_setLatch (sz : Size) : commandBody i sz (s.setLatch l) = (commandBody i sz s).setLatch l := by
  obtain ⟨cmd, va, vb, vs, vd⟩ := l
  cases i with
  | sse | var | subpixVar =>
    simp only [usedViews, List.cons.injEq, UsedView.mk.injEq] at h
    obtain ⟨⟨rfl, -⟩, ⟨rfl, -⟩, -⟩ := h
    rfl
  | interp =>
    simp only [usedViews, List.cons.injEq, UsedView.mk.injEq] at h
    obtain ⟨⟨rfl, -⟩, ⟨rfl, -⟩, -⟩ := h
    rfl
  | interpAvg | subpixAvgVar =>
    simp only [usedViews, List.cons.injEq, UsedView.mk.injEq] at h
    obtain ⟨⟨rfl, -⟩, ⟨rfl, -⟩, ⟨rfl, -⟩, -⟩ := h
    rfl

/-- Under another latch with the same used views a command has the same outcome, but for the latch. -/
theorem exec_setLatch : exec i (s.setLatch l) = outcomeWithLatch l (exec i s) := by
  simp only [exec_eq, runCommand, State.setLatch_latch, State.setLatch_platform, checkConfig_congr h]
  cases checkConfig i s.latch with
  | error e => rfl
  | ok sz =>
    simp only [admission_congr h]
    cases admission i s.latch s.platform sz with
    | nonIdempotent | unadmitted | overlap => rfl
    | unanswered as => exact congrArg _ (busResponse_setLatch h sz as)
    | clear => exact congrArg _ (commandBody_setLatch h sz)

end

/-- Settles O34: the latches agree on the used views, so that the outcomes agree. -/
theorem unusedViewsDoNotMatter : Obligations.UnusedViewsDoNotMatter := by
  intro i s l h
  have hu : usedViews i l = usedViews i s.latch := by cases i <;> simp_all [usedViews]
  have hx : exec i { s with latch := l } = outcomeWithLatch l (exec i s) := exec_setLatch hu
  rw [hx]
  exact ⟨fun t ht => by rw [ht]; rfl, fun f hf => by rw [hf]; rfl, fun f hf => by rw [hf]; rfl⟩

end Sys2Proof.Proofs
end

section
/-!
The decoder, said once for each of its outcomes, and what follows of it: the round trip from the word (30_encoding R92),
the words it rejects in plain arithmetic (R93, R99), and the row of the opcode table a word selects (R104).
-/

namespace Sys2Proof.Proofs

/-- Settles O2: the fields of an assembled word are read back. -/
theorem decodeOfEncode : Obligations.DecodeOfEncode := decodeWord_encode

/-! ## The outcomes of decoding -/

theorem decodeWord_illegalOp_iff {w : Word} : decodeWord w = .error .illegalOp ↔ opOf (opField w) = none := by
  unfold decodeWord
  cases opOf (opField w) with
  | none => simp
  | some op => simp only; split_ifs <;> simp

theorem decodeWord_rsvdField_iff {w : Word} :
    decodeWord w = .error .rsvdField ↔ ∃ op, opOf (opField w) = some op ∧
      (rsvdBits w ≠ 0 ∨ (op.takesNoPhase = true ∧ (xphaseField w ≠ 0 ∨ yphaseField w ≠ 0))) := by
  unfold decodeWord
  cases opOf (opField w) with
  | none => simp
  | some op =>
    simp only [Option.some.injEq, exists_eq_left']
    split_ifs with hr hp
    · exact iff_of_true rfl (.inl hr)
    · exact iff_of_true rfl (.inr hp)
    · exact iff_of_false nofun (not_or.mpr ⟨hr, hp⟩)

/-- A word that decodes has a legal op, no reserved bit and, for SSE and VAR, no phase; its command is made of its
fields. -/
theorem decodeWord_ok {w : Word} {i : Instr} (h : decodeWord w = .ok i) :
    ∃ op, opOf (opField w) = some op ∧ rsvdBits w = 0 ∧
      (op.takesNoPhase = true → xphaseField w = 0 ∧ yphaseField w = 0) ∧
      i = buildInstr op (wcodeField w) (hcodeField w) (xphaseField w) (yphaseField w) := by
  unfold decodeWord at h
  cases ho : opOf (opField w) with
  | none => simp [ho] at h
  | some op =>
    simp only [ho] at h
    split_ifs at h with hr hp
    cases h
    exact ⟨op, rfl, not_not.mp hr, fun ht => by simpa [ht] using hp, rfl⟩

/-! ## The word of what a word decodes to -/

/-- The op of a code has that code (30_encoding R93). -/
theorem opCode_of_opOf {f : BitVec 4} {op : Op} (h : opOf f = some op) : opCode op = f := by
  have key : ∀ f : BitVec 4, ∀ op ∈ opOf f, opCode op = f := by decide
  exact key f op h

/-- A word without a reserved bit is made of its five fields (30_encoding R91). -/
theorem assembleWord_fields {w : Word} (hr : rsvdBits w = 0) :
    assembleWord (yphaseField w) (xphaseField w) (hcodeField w) (wcodeField w) (opField w) = w := by
  apply BitVec.eq_of_getLsbD_eq
  intro k hk
  rw [getLsbD_assembleWord]
  simp only [opField, wcodeField, hcodeField, xphaseField, yphaseField, BitVec.getLsbD_extractLsb']
  by_cases h16 : k < 16
  · interval_cases k <;> rfl
  · have hbit : w.getLsbD k = false := by
      have h := congrArg (BitVec.getLsbD · (k - 16)) hr
      simpa [rsvdBits, BitVec.getLsbD_extractLsb', show k - 16 < 16 by omega, show 16 + (k - 16) = k by omega,
        -BitVec.getLsbD_eq_getElem] using h
    rw [if_neg (by omega), if_neg (by omega), if_neg (by omega), if_neg (by omega), if_neg (by omega), hbit]

/-- The word of the command an op makes of its fields, where SSE and VAR have no phase (30_encoding R92, R101). -/
theorem encode_buildInstr {op : Op} (wc hc : SizeCode) {xp yp : Phase}
    (h : op.takesNoPhase = true → xp = 0 ∧ yp = 0) :
    encode (buildInstr op wc hc xp yp) = assembleWord yp xp hc wc (opCode op) := by
  cases op with
  | sse => obtain ⟨rfl, rfl⟩ := h rfl; rfl
  | var => obtain ⟨rfl, rfl⟩ := h rfl; rfl
  | interp => rfl
  | interpAvg => rfl
  | subpixVar => rfl
  | subpixAvgVar => rfl

/-- Settles O3: the fields of the word, with the reserved bits 0, are all that the command is made of. -/
theorem encodeOfDecode : Obligations.EncodeOfDecode := by
  intro w i h
  obtain ⟨op, ho, hr, hp, rfl⟩ := decodeWord_ok h
  rw [encode_buildInstr _ _ hp, opCode_of_opOf ho, assembleWord_fields hr]

/-! ## The rejected words -/

theorem opField_toNat (w : Word) : (opField w).toNat = w.toNat % 16 := by
  simp [opField, BitVec.extractLsb'_toNat]

theorem rsvdBits_eq_zero_iff {w : Word} : rsvdBits w = 0 ↔ w.toNat / 2 ^ 16 = 0 := by
  have hw := w.isLt
  simp only [rsvdBits, ← BitVec.toNat_inj, BitVec.extractLsb'_toNat, Nat.shiftRight_eq_div_pow,
    BitVec.ofNat_eq_ofNat, BitVec.toNat_ofNat]
  omega

/-- Both phases are 0 exactly when CMD[15:10] is (30_encoding R91). -/
theorem phases_eq_zero_iff {w : Word} : xphaseField w = 0 ∧ yphaseField w = 0 ↔ w.toNat / 2 ^ 10 % 64 = 0 := by
  simp only [xphaseField, yphaseField, ← BitVec.toNat_inj, BitVec.extractLsb'_toNat, Nat.shiftRight_eq_div_pow,
    BitVec.ofNat_eq_ofNat, BitVec.toNat_ofNat]
  omega

/-- The ops without a phase are those of the codes 1 and 2 (30_encoding R92, R93). -/
theorem takesNoPhase_iff {f : BitVec 4} {op : Op} (h : opOf f = some op) : op.takesNoPhase = true ↔ f.toNat ≤ 2 := by
  have key : ∀ f : BitVec 4, ∀ op ∈ opOf f, (op.takesNoPhase = true ↔ f.toNat ≤ 2) := by decide
  exact key f op h

/-- Settles O4: the decoder's three checks in arithmetic on the word. -/
theorem wordsRejectedByRule : Obligations.WordsRejectedByRule := by
  intro w
  have hnone : opOf (opField w) = none ↔ (w.toNat % 16 = 0 ∨ 6 < w.toNat % 16) := by
    rw [opOf_eq_none_iff, opField_toNat]
  refine ⟨decodeWord_illegalOp_iff.trans hnone, decodeWord_rsvdField_iff.trans ?_⟩
  cases ho : opOf (opField w) with
  | none =>
    have := hnone.mp ho
    exact iff_of_false nofun (by omega)
  | some op =>
    have hlegal : ¬ (w.toNat % 16 = 0 ∨ 6 < w.toNat % 16) := fun h => by simp [hnone.mpr h] at ho
    have h1 : 1 ≤ w.toNat % 16 := by omega
    have h6 : w.toNat % 16 ≤ 6 := by omega
    simp only [Option.some.injEq, exists_eq_left', takesNoPhase_iff ho, opField_toNat, ne_eq, rsvdBits_eq_zero_iff,
      ← not_and_or, phases_eq_zero_iff, h1, h6, true_and]

/-! ## The rows of the opcode table -/

theorem row_mem_opcodeRows (i : Instr) : i.row ∈ opcodeRows := by
  cases i <;> simp [Instr.row, opcodeRows]

/-- The word of a command selects its row (30_encoding R104). -/
theorem row_selects_encode (i : Instr) : i.row.selects (encode i) = true := by
  cases i with
  | sse wc hc => exact Laws.RowMatch.sse wc hc
  | var wc hc => exact Laws.RowMatch.var wc hc
  | interp wc hc xp yp => exact Laws.RowMatch.interp wc hc xp yp
  | interpAvg wc hc xp yp => exact Laws.RowMatch.interpAvg wc hc xp yp
  | subpixVar wc hc xp yp => exact Laws.RowMatch.subpixVar wc hc xp yp
  | subpixAvgVar wc hc xp yp => exact Laws.RowMatch.subpixAvgVar wc hc xp yp

/-- Two rows that one word selects agree under each other's masks, so that they are one row. -/
theorem row_eq_of_selects {p q : OpcodeRow} {w : Word} (hp : p ∈ opcodeRows) (hq : q ∈ opcodeRows)
    (hpw : p.selects w = true) (hqw : q.selects w = true) : p = q := by
  have hsymm : Std.Symm fun p q : OpcodeRow => p.matchBits &&& q.mask ≠ q.matchBits &&& p.mask :=
    ⟨fun _ _ h => h.symm⟩
  rw [OpcodeRow.selects, beq_iff_eq] at hpw hqw
  by_contra hne
  refine opcodeRows_disjoint.forall hp hq hne ?_
  rw [← hpw, ← hqw, BitVec.and_assoc, BitVec.and_assoc, BitVec.and_comm p.mask]

/-- Settles O5: the word is its command's, which selects the command's row, and no word selects two. -/
theorem wordSelectsOneRow : Obligations.WordSelectsOneRow := by
  intro w i h
  have hsel : i.row.selects w = true := encodeOfDecode w i h ▸ row_selects_encode i
  refine ⟨row_mem_opcodeRows i, fun row hrow => ⟨fun hs => ?_, fun he => he ▸ hsel⟩⟩
  exact row_eq_of_selects hrow (row_mem_opcodeRows i) hs hsel

/-- Settles O1: each word is the word of the command it stands for. -/
theorem specWordsDecode : Obligations.SpecWordsDecode :=
  ⟨decodeWord_encode (.sse 1 1), decodeWord_encode (.var 1 1), decodeWord_encode (.interp 1 0 4 0),
    decodeWord_encode (.interpAvg 0 0 4 4), decodeWord_encode (.subpixVar 0 0 7 7),
    decodeWord_encode (.subpixAvgVar 1 1 2 6), decodeWord_encode (.sse 4 4), decodeWord_encode (.interp 0 0 1 0)⟩

end Sys2Proof.Proofs
end

section
/-!
The error ends that the command word alone decides (60_exceptions R202, first four checks), and INTERP and INTERP_AVG at
phase (0, 0) (30_encoding R103, 42_interpolation R145).
-/

namespace Sys2Proof.Proofs

open Sys2Proof.Machine

/-! ## Words that do not decode -/

/-- With nothing pending the engine moves. -/
theorem step_nil {s : State} (hi : s.inputs = []) : step s = engineMove s := by
  have hT : takeTurn s = (.engine, s) := by simp [takeTurn, hi]
  simp only [step, hT]

/-- The engine's named turn is used up. -/
theorem step_engineTurn {s : State} {rest : List Input} (hi : s.inputs = .engineTurn :: rest) :
    step s = engineMove (s.setInputs rest) := by
  have hT : takeTurn s = (.engine, s.setInputs rest) := by simp [takeTurn, hi]
  simp only [step, hT]

/-- While BUSY a waiting host keeps waiting and leaves the engine the turn. -/
theorem step_wait_busy {s : State} {rest : List Input} (hb : s.regs.busy = true) (hr : s.rst = false)
    (hi : s.inputs = .wait :: rest) : step s = engineMove s := by
  have hT : takeTurn s = (.engine, s) := by simp [takeTurn, hi, hr, hb]
  simp only [step, hT]

/-- The engine's move while BUSY, the latched word no command. -/
theorem engineMove_rejects {s : State} {e : WordError} (hb : s.regs.busy = true)
    (hd : decodeWord s.latch.cmd = .error e) : engineMove s = .next (rejectWord e s) := by
  simp only [engineMove, fetchWord, hb, hd, if_true]

/-- On each of the engine's turns a latched word that is no command is rejected. -/
theorem step_rejects {s : State} {e : WordError} (hb : s.regs.busy = true) (hd : decodeWord s.latch.cmd = .error e) :
    (s.inputs = [] → step s = .next (rejectWord e s)) ∧
    (∀ rest, s.inputs = .engineTurn :: rest → step s = .next (rejectWord e (s.setInputs rest))) ∧
    (∀ rest, s.rst = false → s.inputs = .wait :: rest → step s = .next (rejectWord e s)) :=
  ⟨fun hi => (step_nil hi).trans (engineMove_rejects hb hd),
    fun rest hi => (step_engineTurn hi).trans (engineMove_rejects (s := s.setInputs rest) hb hd),
    fun _ hr hi => (step_wait_busy hb hr hi).trans (engineMove_rejects hb hd)⟩

/-- Settles O8: the arithmetic of O4 says which error the engine's move reports. -/
theorem badWordEndsWithError : Obligations.BadWordEndsWithError := by
  rintro s code hb (⟨rfl, hop⟩ | ⟨rfl, hfield⟩)
  · exact step_rejects hb ((wordsRejectedByRule s.latch.cmd).1.mpr hop)
  · exact step_rejects hb ((wordsRejectedByRule s.latch.cmd).2.mpr hfield)

/-! ## Sizes outside the catalogue -/

/-- Settles O37: such a pair of codes decodes to no size, and the first check of the command fails. -/
theorem badSizeEndsCommand : Obligations.BadSizeEndsCommand := by
  intro i s h
  have hillegal : SizeCode.legalPair i.wcode i.hcode = false := by
    simp only [SizeCode.legalPair, Bool.and_eq_false_iff, decide_eq_false_iff_not]
    omega
  exact exec_of_checkConfig_error (checkConfig_badSize (sizeDecode_none_iff.mpr hillegal))

/-! ## Phase (0, 0) -/

/-- At phase (0, 0) the interpolator is the identity (42_interpolation R145). -/
theorem sampleAt_zero (src : Nat → Nat → Nat) (r c : Nat) : sampleAt 0 0 src r c = src r c := by
  simp only [sampleAt, tapSample_zero]

/-- Settles O28: COPY stores the samples of A themselves. -/
theorem phaseZeroCopiesBlock : Obligations.PhaseZeroCopiesBlock := by
  intro wc hc sz s h
  obtain ⟨t, ht, -, hpix, -⟩ := interpCompletes wc hc 0 0 sz s h
  exact ⟨t, ht, fun r hr c hc => (hpix r hr c hc).trans (sampleAt_zero _ r c)⟩

/-- Settles O29: AVG stores the rounded averages of the samples of A and S themselves. -/
theorem phaseZeroAverages : Obligations.PhaseZeroAverages := by
  intro wc hc sz s h
  obtain ⟨t, ht, -, hpix, -⟩ := interpAvgCompletes wc hc 0 0 sz s h
  refine ⟨t, ht, fun r hr c hc => ?_⟩
  rw [hpix r hr c hc, averagedAt, sampleAt_zero]

end Sys2Proof.Proofs
end

section
/-!
The laws of the statistics commands: the bounds of the delivered results (41_statistics R121, R123, R124), the exchange
of the two blocks and the uniform difference (R126).
-/

namespace Sys2Proof.Proofs

open Sys2Proof.Machine

/-! ## Bounds -/

/-- What a reduction of two blocks of samples delivers keeps the bounds of 41_statistics R121, R123 and R124. -/
theorem delivered_bounded {wc hc : SizeCode} {sz : Size} (h : sizeDecode wc hc = some sz) {x y : Nat → Nat → Nat}
    (hx : IsPixels sz x) (hy : IsPixels sz y) :
    (BitVec.ofNat 32 (reduce sz x y).1).toNat ≤ 266342400 ∧ (BitVec.ofInt 32 (reduce sz x y).2).toInt.natAbs ≤ 1044480 ∧
      (BitVec.ofNat 32 (variance sz (reduce sz x y).1 (reduce sz x y).2)).toNat ≤
        (BitVec.ofNat 32 (reduce sz x y).1).toNat := by
  obtain ⟨hsse, hsum, hvar⟩ := delivered_exact h hx hy
  obtain ⟨-, hsse_le, hsum_le⟩ := sums_bounded h hx hy
  obtain ⟨-, -, hvar_le⟩ := variance_eq h x y
  rw [← hsum, Int.abs_eq_natAbs] at hsum_le
  omega

/-- Settles O20: each of the four delivers a reduction of two blocks of samples. -/
theorem resultBounds : Obligations.ResultBounds := by
  intro i sz s h hi
  refine ⟨_, exec_clean h, ?_⟩
  obtain ⟨⟨hsz, -⟩, -⟩ := h
  have bounded {x : Nat → Nat → Nat} (hx : IsPixels sz x) :=
    delivered_bounded hsz hx (isPixels_pix sz s.mem s.latch.viewB)
  rcases hi with ⟨wc, hc, rfl⟩ | ⟨wc, hc, rfl⟩ | ⟨wc, hc, xp, yp, rfl⟩ | ⟨wc, hc, xp, yp, rfl⟩
  · obtain ⟨hsse, hsum, -⟩ := bounded (isPixels_pix sz s.mem s.latch.viewA)
    exact ⟨hsse, hsum, .inl ⟨wc, hc, rfl⟩⟩
  · obtain ⟨hsse, hsum, hvar⟩ := bounded (isPixels_pix sz s.mem s.latch.viewA)
    exact ⟨hsse, hsum, .inr hvar⟩
  · rw [commandBody_subpixVar]
    obtain ⟨hsse, hsum, hvar⟩ := bounded (isPixels_sampleAt sz xp yp s.mem s.latch.viewA)
    exact ⟨hsse, hsum, .inr hvar⟩
  · rw [commandBody_subpixAvgVar]
    obtain ⟨hsse, hsum, hvar⟩ := bounded (isPixels_averagedAt sz xp yp s.mem s.latch.viewA s.latch.viewS)
    exact ⟨hsse, hsum, .inr hvar⟩

/-! ## Exchanged blocks -/

theorem sumSquares_comm (sz : Size) (x y : Nat → Nat → Nat) : sumSquares sz y x = sumSquares sz x y := by
  simp only [sumSquares, sub_sq_comm]

theorem sumDiffs_swap (sz : Size) (x y : Nat → Nat → Nat) : sumDiffs sz y x = -sumDiffs sz x y := by
  simp only [sumDiffs, ← Finset.sum_neg_distrib, neg_sub]

theorem varianceOf_comm (sz : Size) (x y : Nat → Nat → Nat) : varianceOf sz y x = varianceOf sz x y := by
  rw [varianceOf, sumSquares_comm, sumDiffs_swap, neg_sq, varianceOf]

/-- Whether a launch is clean depends on the platform and on which views are used as what, not on their order. -/
theorem cleanLaunch_congr {i : Instr} {sz : Size} {s u : State} (hp : u.platform = s.platform)
    (hv : ∀ v, v ∈ usedViews i u.latch ↔ v ∈ usedViews i s.latch) (h : CleanLaunch i sz s) : CleanLaunch i sz u := by
  simpa only [CleanLaunch, LegalConfig, NoOverlap, mem_accessAddrs, hp, hv] using h

/-- Settles O21: the exchanged launch is clean too, and d² keeps its value while d changes its sign. -/
theorem swappedViewsNegateSum : Obligations.SwappedViewsNegateSum := by
  intro wc hc sz s h
  have hswap : CleanLaunch (.var wc hc) sz
      { s with latch := { s.latch with viewA := s.latch.viewB, viewB := s.latch.viewA } } :=
    cleanLaunch_congr (s := s) rfl (fun v => by simp only [usedViews, List.mem_pair, or_comm]) h
  obtain ⟨t, ht, -, hsse, hvar, hsum, -⟩ := varCompletes wc hc sz s h
  obtain ⟨u, hu, -, hsse', hvar', hsum', -⟩ := varCompletes wc hc sz _ hswap
  refine ⟨t, u, ht, hu, BitVec.eq_of_toNat_eq ?_, BitVec.eq_of_toNat_eq ?_, ?_⟩
  · exact_mod_cast hsse'.trans ((sumSquares_comm ..).trans hsse.symm)
  · exact_mod_cast hvar'.trans ((varianceOf_comm ..).trans hvar.symm)
  · rw [hsum', hsum, sumDiffs_swap]

/-! ## A uniform difference -/

/-- The difference of the two blocks is `k` at every pixel (41_statistics R126). -/
def UniformDifference (sz : Size) (x y : Nat → Nat → Nat) (k : Int) : Prop :=
  ∀ r < sz.h, ∀ c < sz.w, (x r c : Int) - (y r c : Int) = k

/-- A sum over the block whose terms are all `a`. -/
theorem sum_block_const {sz : Size} {f : Nat → Nat → Int} {a : Int} (h : ∀ r < sz.h, ∀ c < sz.w, f r c = a) :
    ∑ r ∈ Finset.range sz.h, ∑ c ∈ Finset.range sz.w, f r c = sz.w * sz.h * a := by
  have hrow : ∀ r ∈ Finset.range sz.h, ∑ c ∈ Finset.range sz.w, f r c = sz.w * a := fun r hr => by
    rw [Finset.sum_congr rfl fun c hc => h r (Finset.mem_range.mp hr) c (Finset.mem_range.mp hc)]
    simp
  rw [Finset.sum_congr rfl hrow, Finset.sum_const, Finset.card_range, nsmul_eq_mul]
  ring

section

variable {sz : Size} {x y : Nat → Nat → Nat} {k : Int}

theorem sumSquares_uniform (h : UniformDifference sz x y k) : sumSquares sz x y = sz.w * sz.h * k ^ 2 :=
  sum_block_const fun r hr c hc => by rw [h r hr c hc]

theorem sumDiffs_uniform (h : UniformDifference sz x y k) : sumDiffs sz x y = sz.w * sz.h * k :=
  sum_block_const h

/-- (N·k)² / N is N·k² without a remainder, so nothing is left of Σ d². -/
theorem varianceOf_uniform (hn : 0 < sz.w * sz.h) (h : UniformDifference sz x y k) : varianceOf sz x y = 0 := by
  have hn' : (sz.w : Int) * sz.h ≠ 0 := by exact_mod_cast hn.ne'
  rw [varianceOf, sumSquares_uniform h, sumDiffs_uniform h, mul_pow, sq (_ * _), mul_assoc (_ * _),
    Int.mul_ediv_cancel_left _ hn', sub_self]

end

/-- Settles O22: VAR delivers the exact sums, and those of a uniform difference are N·k², N·k and 0. -/
theorem uniformDifferenceHasNoVariance : Obligations.UniformDifferenceHasNoVariance := by
  intro wc hc sz s k h hk
  have hlegal : LegalConfig _ s.latch sz := h.1
  have hvar0 := varianceOf_uniform (size_pixels hlegal.1).2.1 hk
  obtain ⟨t, ht, -, hsse, hvar, hsum, -⟩ := varCompletes wc hc sz s h
  exact ⟨t, ht, hsse.trans (sumSquares_uniform hk), hsum.trans (sumDiffs_uniform hk),
    BitVec.eq_of_toNat_eq (by exact_mod_cast hvar.trans hvar0)⟩

end Sys2Proof.Proofs
end

section
/-!
The sub-pixel statistics at a clean launch, SUBPIX_VAR at phase (0, 0), and the range of the samples INTERP stores
(42_interpolation R142, R145, R149; 43_subpixel_statistics R170 to R175).
-/

namespace Sys2Proof.Proofs

open Sys2Proof.Machine

/-! ## The statistics of a synthesized block -/

/-- The next state delivers the statistics of block `x` against B and changes nothing but the register file and the hidden
state (43_subpixel_statistics R170, R171). -/
def DeliversStatistics (sz : Size) (x : Nat → Nat → Nat) (s t : State) : Prop :=
  t.regs = { s.regs with busy := false, done := true, resSse := t.regs.resSse, resVar := t.regs.resVar,
                         resSum := t.regs.resSum } ∧
  (t.regs.resSse.toNat : Int) = sumSquares sz x (pix s.mem s.latch.viewB) ∧
  (t.regs.resVar.toNat : Int) = varianceOf sz x (pix s.mem s.latch.viewB) ∧
  t.regs.resSum.toInt = sumDiffs sz x (pix s.mem s.latch.viewB) ∧
  t = { s with regs := t.regs, hidden := t.hidden }

/-- The completion of a sub-pixel statistics command delivers the statistics of whatever block of samples was reduced. -/
theorem completeOk_deliversStatistics {wc hc : SizeCode} {sz : Size} (h : sizeDecode wc hc = some sz)
    {x : Nat → Nat → Nat} (hx : IsPixels sz x) (s : State) :
    let r := reduce sz x (pix s.mem s.latch.viewB)
    DeliversStatistics sz x s (completeOk (varResults sz r) (discardBuffers (setAccs r s))) := by
  obtain ⟨hsse, hsum, hvar⟩ := delivered_exact h hx (isPixels_pix sz s.mem s.latch.viewB)
  exact ⟨rfl, hsse, hvar, hsum, rfl⟩

/-- Settles O17: the block reduced against B is A interpolated. -/
theorem subpixVarCompletes : Obligations.SubpixVarCompletes := by
  intro wc hc xp yp sz s h
  have hlegal : LegalConfig _ s.latch sz := h.1
  refine ⟨_, exec_clean h, ?_⟩
  rw [commandBody_subpixVar]
  exact completeOk_deliversStatistics hlegal.1 (isPixels_sampleAt sz xp yp s.mem s.latch.viewA) s

/-- Settles O18: the block reduced against B is A interpolated and averaged with S. -/
theorem subpixAvgVarCompletes : Obligations.SubpixAvgVarCompletes := by
  intro wc hc xp yp sz s h
  have hlegal : LegalConfig _ s.latch sz := h.1
  refine ⟨_, exec_clean h, ?_⟩
  rw [commandBody_subpixAvgVar]
  exact completeOk_deliversStatistics hlegal.1 (isPixels_averagedAt sz xp yp s.mem s.latch.viewA s.latch.viewS) s

/-! ## Phase (0, 0) -/

/-- A block's window lies within the interpolator's window of the same view (20_memory R66). -/
theorem stats_addrs_subset (v : View) (sz : Size) :
    UsedView.addrs sz ⟨v, .stats⟩ ⊆ UsedView.addrs sz ⟨v, .interpSrc⟩ := by
  intro a ha
  obtain ⟨r, hr, c, hc, rfl⟩ := mem_addrs.mp ha
  exact mem_addrs.mpr ⟨r, Nat.lt_succ_of_lt hr, c, Nat.lt_succ_of_lt hc, rfl⟩

/-- A block's window ends no later than the interpolator's window of the same view (20_memory R69). -/
theorem stats_lastAddr_le (v : View) (sz : Size) :
    UsedView.lastAddr sz ⟨v, .stats⟩ ≤ UsedView.lastAddr sz ⟨v, .interpSrc⟩ := by
  have hrows : (sz.h - 1) * v.stride.toNat ≤ sz.h * v.stride.toNat := Nat.mul_le_mul_right _ (Nat.sub_le ..)
  simp only [UsedView.lastAddr, Role.rows, Role.cols, Nat.add_sub_cancel]
  omega

/-- Where SUBPIX_VAR launches clean so does VAR, whose window of A is the narrower (20_memory R66). -/
theorem cleanLaunch_var_of_subpixVar {wc hc : SizeCode} {xp yp : Phase} {sz : Size} {s : State}
    (h : CleanLaunch (.subpixVar wc hc xp yp) sz s) : CleanLaunch (.var wc hc) sz s := by
  obtain ⟨⟨hsz, hviews⟩, hram, -⟩ := h
  simp only [usedViews, List.forall_mem_cons] at hviews
  obtain ⟨⟨hstride, hlast⟩, hB, -⟩ := hviews
  refine ⟨⟨hsz, ?_⟩, fun a ha => hram a ?_, ?_⟩
  · simp only [usedViews, List.forall_mem_cons]
    exact ⟨⟨hstride, (stats_lastAddr_le _ sz).trans hlast⟩, hB, List.forall_mem_nil _⟩
  · simp only [mem_accessAddrs, usedViews, List.exists_mem_cons_iff] at ha ⊢
    exact ha.imp_left (stats_addrs_subset _ sz ·)
  · intro d hd hdest
    simp only [usedViews, List.mem_pair] at hd
    rcases hd with rfl | rfl <;> cases hdest

/-- At phase (0, 0) SUBPIX_VAR writes the results of VAR (42_interpolation R145). -/
theorem resultsOf_subpixVar_zero (wc hc : SizeCode) (sz : Size) (s : State) :
    resultsOf (.subpixVar wc hc 0 0) sz s = resultsOf (.var wc hc) sz s := by
  have hid : sampleAt 0 0 (pix s.mem s.latch.viewA) = pix s.mem s.latch.viewA := funext₂ (sampleAt_zero _)
  simp only [resultsOf, interpolate_pix, hid]

/-- Settles O23: both launches are clean, and the completions write the same results. -/
theorem subpixVarAtPhaseZeroIsVar : Obligations.SubpixVarAtPhaseZeroIsVar := by
  intro wc hc sz s h
  refine ⟨_, _, exec_clean h, exec_clean (cleanLaunch_var_of_subpixVar h), ?_⟩
  rw [commandBody_regs, commandBody_regs, resultsOf_subpixVar_zero]

/-! ## The range of an interpolated sample -/

/-- An interpolated sample lies between any bounds of the four samples it is made of: each pass keeps them
(42_interpolation R142). -/
theorem sampleAt_between {src : Nat → Nat → Nat} {r c lo hi : Nat} (xp yp : Phase)
    (h : ∀ p ∈ [src r c, src r (c + 1), src (r + 1) c, src (r + 1) (c + 1)], lo ≤ p ∧ p ≤ hi) :
    lo ≤ sampleAt xp yp src r c ∧ sampleAt xp yp src r c ≤ hi := by
  simp only [List.forall_mem_cons] at h
  obtain ⟨⟨l00, u00⟩, ⟨l01, u01⟩, ⟨l10, u10⟩, ⟨l11, u11⟩, -⟩ := h
  obtain ⟨ltop, utop⟩ := tapSample_between xp l00 l01 u00 u01
  obtain ⟨lbot, ubot⟩ := tapSample_between xp l10 l11 u10 u11
  exact tapSample_between yp ltop lbot utop ubot

/-- Settles O31: the sample stored is the interpolated one. -/
theorem interpStaysBetweenSamples : Obligations.InterpStaysBetweenSamples := by
  intro wc hc xp yp sz s h
  obtain ⟨t, ht, -, hpix, -⟩ := interpCompletes wc hc xp yp sz s h
  refine ⟨t, ht, fun r hr c hc lo hi hp => ?_⟩
  rw [hpix r hr c hc]
  exact sampleAt_between xp yp hp

end Sys2Proof.Proofs
end

section
/-!
The sub-pixel statistics as VAR on a memory block that holds the synthesized block (43_subpixel_statistics R170).
-/

namespace Sys2Proof.Proofs

open Sys2Proof.Machine

/-- Both commands complete and deliver the same RES_SSE, RES_VAR and RES_SUM. -/
def DeliverSameResults (i : Instr) (s : State) (j : Instr) (u : State) : Prop :=
  ∃ t v, exec i s = .next t ∧ exec j u = .next v ∧
    t.regs.resSse = v.regs.resSse ∧ t.regs.resVar = v.regs.resVar ∧ t.regs.resSum = v.regs.resSum

/-- A command that reduces a block `x` against B delivers what VAR delivers where `x` and B stand in memory as VAR's
blocks, for a reduction depends on the samples of its two blocks alone (41_statistics R120, R128). -/
theorem deliverSameResults_var {i : Instr} {wc hc : SizeCode} {sz : Size} {s u : State} {x : Nat → Nat → Nat}
    (hs : CleanLaunch i sz s) (hu : CleanLaunch (.var wc hc) sz u)
    (hi : resultsOf i sz s = varResults sz (reduce sz x (pix s.mem s.latch.viewB)))
    (hA : SameSamples sz.h sz.w (pix u.mem u.latch.viewA) x)
    (hB : SameSamples sz.h sz.w (pix u.mem u.latch.viewB) (pix s.mem s.latch.viewB)) :
    DeliverSameResults i s (.var wc hc) u := by
  have hvar : resultsOf (.var wc hc) sz u = resultsOf i sz s := by
    rw [hi, ← reduce_congr hA hB]
    rfl
  refine ⟨_, _, exec_clean hs, exec_clean hu, ?_⟩
  rw [commandBody_regs, commandBody_regs, ← hvar]
  exact ⟨rfl, rfl, rfl⟩

/-- Settles O24: SUBPIX_VAR reduces A interpolated, SUBPIX_AVG_VAR that averaged with S, and VAR finds the same block in
memory. -/
theorem subpixIsVarOfStoredBlock : Obligations.SubpixIsVarOfStoredBlock := by
  intro wc hc xp yp sz s u hu hB
  refine ⟨fun hs hA => deliverSameResults_var hs hu ?_ hA hB, fun hs hA => deliverSameResults_var hs hu ?_ hA hB⟩
  · rw [← interpolate_pix]
    rfl
  · rw [← interpolateAvg_pix]
    rfl

end Sys2Proof.Proofs
end

section
/-!
The ends of a command and the turns without one (60_exceptions R203 to R210, R218): a clean launch, a platform that never
answers, the reach of an error completion, and the engine's turn while IDLE.
-/

namespace Sys2Proof.Proofs

open Sys2Proof.Machine

/-! ## The ends of a command -/

/-- While BUSY no error is recorded (10_state R30, R32, R43). -/
theorem noError_of_busy {s : State} (hs : s.Inv) (hb : s.regs.busy = true) :
    s.regs.err = false ∧ s.regs.errCode = 0 ∧ s.regs.errAddr = 0 := by
  obtain ⟨-, herr, -, hbusy, haddr, -⟩ := hs
  have he : s.regs.err = false := (hbusy hb).2
  have hc : s.regs.errCode = 0 := herr.mp he
  exact ⟨he, hc, haddr (by simp [hc])⟩

/-- Settles O35: the step is the command's own effect, whose completion records no error. -/
theorem cleanLaunchCompletes : Obligations.CleanLaunchCompletes := by
  intro i sz s hs hb hi hd hc
  obtain ⟨herr, hcode, haddr⟩ := noError_of_busy hs hb
  refine ⟨commandBody i sz s, ?_, ?_⟩
  · rw [step_nil hi, engineMove_busy hb hd, exec_clean hc]
  · simp [State.irq, commandBody_regs, herr, hcode, haddr]

/-- Settles O41: an unbacked address stays unanswered, and a platform that hangs leaves the state as it was. -/
theorem unansweredCommandHangs : Obligations.UnansweredCommandHangs := by
  rintro i s sz hl hn hk ⟨a, ha, hu⟩ hhang
  obtain ⟨as, hadm, hne, -⟩ := admission_of_unbacked hk hn ha hu
  rcases busResponse_cases i sz s hne with ⟨-, hbus⟩ | ⟨herror, -⟩
  · rw [exec_of_legal hl, hadm, admittedOutcome, hbus]
  · cases hhang.symm.trans herror

/-- The errors of the configuration checks have the codes 3 to 5 (60_exceptions R201, R202). -/
theorem errorCode_of_configError {e : CmdError} (h : e = .badSize ∨ e = .badStride ∨ e = .addrWrap) :
    3 ≤ (errorCode e).toNat ∧ (errorCode e).toNat ≤ 5 := by
  rcases h with rfl | rfl | rfl <;> decide

/-- Settles O44: the ends that set ERR are the error completions, and a bus error alone draws destination bytes before
its completion. -/
theorem errorCompletionIsPrecise : Obligations.ErrorCompletionIsPrecise := by
  intro i s t hs h ht
  rcases exec_next h with ⟨e, he, rfl⟩ | ⟨sz, a, -, -, rfl⟩ | ⟨rfl, -⟩ | ⟨sz, -, rfl⟩
  · obtain ⟨hlo, hhi⟩ := errorCode_of_configError he
    exact ⟨rfl, hlo, Nat.le_succ_of_le hhi, fun _ => ⟨rfl, rfl⟩⟩
  · simp [errorCode]
  · cases hs.symm.trans ht
  · simp [commandBody_regs, hs] at ht

/-! ## IDLE -/

/-- The engine's move with nothing in flight. -/
theorem engineMove_idle {s : State} (hb : s.regs.busy = false) : engineMove s = .next s := by
  simp [engineMove, hb]

/-- While IDLE a host's wait is over: its move is used up. -/
theorem step_wait_idle {s : State} {rest : List Input} (hb : s.regs.busy = false) (hr : s.rst = false)
    (hi : s.inputs = .wait :: rest) : step s = engineMove (s.setInputs rest) := by
  have hT : takeTurn s = (.engine, s.setInputs rest) := by simp [takeTurn, hi, hr, hb]
  simp only [step, hT]

/-- Settles O9: on each of the engine's turns the step is the engine's move, which changes nothing while IDLE. -/
theorem idleStepChangesNothing : Obligations.IdleStepChangesNothing := fun s hb =>
  ⟨fun hi => (step_nil hi).trans (engineMove_idle hb),
    fun rest hi => (step_engineTurn hi).trans (engineMove_idle (s := s.setInputs rest) hb),
    fun rest hr hi => (step_wait_idle hb hr hi).trans (engineMove_idle (s := s.setInputs rest) hb)⟩

end Sys2Proof.Proofs
end

section
/-!
Configuration writes while a command is in flight (10_state R39, 70_reset_and_hazards R247).
-/

namespace Sys2Proof.Proofs

open Sys2Proof.Machine

/-- While BUSY a configuration write changes nothing (10_state R39). -/
theorem writeConfig_busy {s : State} (r : Regs) (hb : s.regs.busy = true) : writeConfig r s = s := by
  simp [writeConfig, hb]

/-- The nine offsets of CMD and the view registers reach a register whose write is a configuration write (10_state R34 to
R38). -/
theorem writeReg_eq_writeConfig {off : Nat} (v : Word)
    (hoff : off ∈ [0x0C, 0x10, 0x14, 0x18, 0x1C, 0x20, 0x24, 0x28, 0x2C]) :
    ∃ g, regAt off = some g ∧ ∀ u, ∃ r, writeReg g v u = .next (writeConfig r u) := by
  revert off
  simp only [List.forall_mem_cons]
  exact ⟨⟨.cmd, rfl, fun _ => ⟨_, rfl⟩⟩, ⟨.aAddr, rfl, fun _ => ⟨_, rfl⟩⟩, ⟨.aStride, rfl, fun _ => ⟨_, rfl⟩⟩,
    ⟨.bAddr, rfl, fun _ => ⟨_, rfl⟩⟩, ⟨.bStride, rfl, fun _ => ⟨_, rfl⟩⟩, ⟨.sAddr, rfl, fun _ => ⟨_, rfl⟩⟩,
    ⟨.sStride, rfl, fun _ => ⟨_, rfl⟩⟩, ⟨.dAddr, rfl, fun _ => ⟨_, rfl⟩⟩, ⟨.dStride, rfl, fun _ => ⟨_, rfl⟩⟩,
    List.forall_mem_nil _⟩

/-- Settles O51: each offset reaches a configuration register, which ignores the write while BUSY. -/
theorem configWritesIgnoredWhileBusy : Obligations.ConfigWritesIgnoredWhileBusy := by
  intro s v rest off hr hb hoff hi
  obtain ⟨g, hg, hw⟩ := writeReg_eq_writeConfig v hoff
  obtain ⟨r, hcfg⟩ := hw (s.setInputs rest)
  rw [step_wr hg hr hi, hcfg, writeConfig_busy (s := s.setInputs rest) r hb]
  rfl

end Sys2Proof.Proofs
end
